-- ==== Sys2Proof/Word.lean ====
section
/-! DEFINITION. The values of the machine. A word (the content of a cell, of `rb`, of a queue entry) is a signed integer, and an
address is a natural number (spec R10, R20, R22). The spec computes on exact integers and range-checks at named places (R124,
R150); nothing masks, shifts or wraps a word, so a word is an `Int` and no bit vector (log 4). The range of a width stands
here; the check against a configuration is `Sys2Proof.Machine.fits`. -/

namespace Sys2Proof

/-- `WMIN = -2^(W-1)` (R9, I6). -/
def wordMin (w : Nat) : Int := -((2 ^ (w - 1) : Nat) : Int)

/-- `WMAX = 2^(W-1) - 1` (R9, I6). -/
def wordMax (w : Nat) : Int := ((2 ^ (w - 1) : Nat) : Int) - 1

end Sys2Proof
end

