-- ==== Sys2Proof/Config.lean ====
section
/-! DEFINITION. The implementation parameters of spec R9. The spec leaves both open (D2, D15); nothing else of a step is
open (R110), so there is no free value. -/

namespace Sys2Proof

/-- The two open parameters of R9, fixed for the life of a Machine (R35). `none` is the value `INF`. -/
structure Config where
  /-- `WORD_BITS`, the width W of a signed word; `none`: unbounded integers. -/
  wordBits : Option Nat
  /-- `MEM_LIMIT`, the number of addressable cells; `none`: no limit. -/
  memLimit : Option Nat
  deriving DecidableEq, Repr

/-- The spec's defaults: `WORD_BITS` 128, `MEM_LIMIT` INF (R9; log 2). -/
def Config.standard : Config := ⟨some 128, none⟩

/-- The configurations the invariants speak of: the word holds the results 0 and 1 of a compare. A signed word of
fewer than two bits cannot (R10, R200; log 3). -/
abbrev Config.wf (c : Config) : Prop := ∀ w ∈ c.wordBits, 2 ≤ w

/-- How many bits of an opcode-table word make one memory word when the table's rows are laid out: the default
`WORD_BITS` (log 11). -/
def Config.tableWordBits : Nat := 128

end Sys2Proof
end

