-- ==== Sys2Proof/Syntax.lean ====
section
/-! DEFINITION. The instructions as syntax: one constructor per row of spec/opcode_table.json, each with the three mode digits
its instruction word holds (spec R81). The parameters are memory words that the resolver reads while the instruction
executes (R80, R117); they are no part of the decoded instruction (log 10). -/

namespace Sys2Proof

/-- The parameter modes (R85). -/
inductive Mode where
  | position
  | immediate
  | relative
  deriving DecidableEq, Repr

/-- Three decoded modes, one per parameter slot: the content of the mode latch (R24). -/
structure Modes where
  m1 : Mode
  m2 : Mode
  m3 : Mode
  deriving DecidableEq, Repr

/-- The parameter slots (R16, R80). -/
inductive Slot where
  | one
  | two
  | three
  deriving DecidableEq, Repr

/-- Whether a slot is resolved to be read or to be written (R117). -/
inductive Access where
  | read
  | write
  deriving DecidableEq, Repr

/-- The five formats (R82). -/
inductive Format where
  | RRW
  | W
  | R
  | RR
  | N
  deriving DecidableEq, Repr

/-- The ten instructions (R83), each with the mode digits `m1 m2 m3` of its word, those of slots its format lacks
included: they are checked at decode and then ignored (R87, R92). `inp` and `out` are the spec's IN and OUT. -/
inductive Instr where
  | add (m1 m2 m3 : Mode)
  | mul (m1 m2 m3 : Mode)
  | inp (m1 m2 m3 : Mode)
  | out (m1 m2 m3 : Mode)
  | jt (m1 m2 m3 : Mode)
  | jf (m1 m2 m3 : Mode)
  | lt (m1 m2 m3 : Mode)
  | eq (m1 m2 m3 : Mode)
  | arb (m1 m2 m3 : Mode)
  | halt (m1 m2 m3 : Mode)
  deriving DecidableEq, Repr

end Sys2Proof
end

