-- ==== Sys2Proof/WellFormed.lean ====
section
/-! DEFINITION. What the spec asks of an instruction beyond decoding: no write slot in immediate mode, "a contract
violation" (R88, R120), and the canonical encoding of R92. An instruction that breaks the first still decodes and then
faults; one that breaks the second still executes. No statement is limited to canonical instructions. -/

namespace Sys2Proof

/-- No write slot is in immediate mode (R88): slot 3 of ADD, MUL, LT and EQ, slot 1 of IN. -/
def Instr.writeSlotOk : Instr → Bool
  | .add _ _ m3 => decide (m3 ≠ .immediate)
  | .mul _ _ m3 => decide (m3 ≠ .immediate)
  | .inp m1 _ _ => decide (m1 ≠ .immediate)
  | .out _ _ _ => true
  | .jt _ _ _ => true
  | .jf _ _ _ => true
  | .lt _ _ m3 => decide (m3 ≠ .immediate)
  | .eq _ _ m3 => decide (m3 ≠ .immediate)
  | .arb _ _ _ => true
  | .halt _ _ _ => true

/-- An instruction is well formed when it keeps the contract of R88 (log 15). -/
def Instr.wellFormed (i : Instr) : Bool := i.writeSlotOk

/-- The canonical encoding writes 0 for every digit of a slot the format lacks (R92). -/
def Instr.canonical : Instr → Bool
  | .add _ _ _ => true
  | .mul _ _ _ => true
  | .inp _ m2 m3 => decide (m2 = .position) && decide (m3 = .position)
  | .out _ m2 m3 => decide (m2 = .position) && decide (m3 = .position)
  | .jt _ _ m3 => decide (m3 = .position)
  | .jf _ _ m3 => decide (m3 = .position)
  | .lt _ _ _ => true
  | .eq _ _ _ => true
  | .arb _ m2 m3 => decide (m2 = .position) && decide (m3 = .position)
  | .halt m1 m2 m3 => decide (m1 = .position) && decide (m2 = .position) && decide (m3 = .position)

end Sys2Proof
end

