-- ==== Sys2Proof/Decode.lean ====
section
/-! DEFINITION. The decoder of an instruction word, by decimal digits (spec R81, R86, R87, R112, R113), total on every
integer and rejecting by name; and after it the encoder (R81, R83). -/

namespace Sys2Proof

/-- Why a word is no instruction. `invalidOpcode`: R86, R112. `invalidMode`: R87, R113. -/
inductive DecodeReject where
  | invalidOpcode
  | invalidMode
  deriving DecidableEq, Repr

/-- The decimal digit of weight `10^k` (R11). -/
def digit (w k : Nat) : Nat := w / 10 ^ k % 10

/-- "mapping digit 0→position, 1→immediate, 2→relative" (R113); no other digit has a mode. -/
def modeOfDigit : Nat → Option Mode
  | 0 => some .position
  | 1 => some .immediate
  | 2 => some .relative
  | _ => none

/-- The opcode map (R83): which instruction an opcode selects. `none`: not in OPSET (R112). -/
def instrOfOpcode (op : Nat) (m : Modes) : Option Instr :=
  match op with
  | 1 => some (.add m.m1 m.m2 m.m3)
  | 2 => some (.mul m.m1 m.m2 m.m3)
  | 3 => some (.inp m.m1 m.m2 m.m3)
  | 4 => some (.out m.m1 m.m2 m.m3)
  | 5 => some (.jt m.m1 m.m2 m.m3)
  | 6 => some (.jf m.m1 m.m2 m.m3)
  | 7 => some (.lt m.m1 m.m2 m.m3)
  | 8 => some (.eq m.m1 m.m2 m.m3)
  | 9 => some (.arb m.m1 m.m2 m.m3)
  | 99 => some (.halt m.m1 m.m2 m.m3)
  | _ => none

/-- The recognised opcodes (R112). -/
def opSet : List Nat := [1, 2, 3, 4, 5, 6, 7, 8, 9, 99]

/-- The three mode digits of a word, least significant first (R113); `none` when one of them is 3 to 9. -/
def modesOfWord (n : Nat) : Option Modes := do
  let m1 ← modeOfDigit (digit n 2)
  let m2 ← modeOfDigit (digit n 3)
  let m3 ← modeOfDigit (digit n 4)
  pure ⟨m1, m2, m3⟩

/-- `Decode(w)` (R112, R113): a negative word and an unrecognised opcode first, then a word of six or more digits and the
mode digits. -/
def decodeWord (w : Int) : Except DecodeReject Instr :=
  if w < 0 then .error .invalidOpcode
  else if w.toNat % 100 ∉ opSet then .error .invalidOpcode
  else if 100000 ≤ w.toNat then .error .invalidMode
  else match modesOfWord w.toNat with
    | none => .error .invalidMode
    | some m =>
      match instrOfOpcode (w.toNat % 100) m with
      | none => .error .invalidOpcode
      | some i => .ok i

/-- The mode of a slot: `modes.m_k` (R24, R117). -/
def Modes.of (m : Modes) : Slot → Mode
  | .one => m.m1
  | .two => m.m2
  | .three => m.m3

/-- The number of a slot: slot `k` of the instruction at `ip0` is the cell `ip0 + k` (R80). -/
def Slot.num : Slot → Nat
  | .one => 1
  | .two => 2
  | .three => 3

/-- The decimal digit of a mode (R85). -/
def Mode.digit : Mode → Nat
  | .position => 0
  | .immediate => 1
  | .relative => 2

/-- The opcode of an instruction (R83). -/
def Instr.opcode : Instr → Nat
  | .add _ _ _ => 1
  | .mul _ _ _ => 2
  | .inp _ _ _ => 3
  | .out _ _ _ => 4
  | .jt _ _ _ => 5
  | .jf _ _ _ => 6
  | .lt _ _ _ => 7
  | .eq _ _ _ => 8
  | .arb _ _ _ => 9
  | .halt _ _ _ => 99

/-- The three mode digits an instruction carries: what decode writes to the mode latch (R113). -/
def Instr.modes : Instr → Modes
  | .add m1 m2 m3 => ⟨m1, m2, m3⟩
  | .mul m1 m2 m3 => ⟨m1, m2, m3⟩
  | .inp m1 m2 m3 => ⟨m1, m2, m3⟩
  | .out m1 m2 m3 => ⟨m1, m2, m3⟩
  | .jt m1 m2 m3 => ⟨m1, m2, m3⟩
  | .jf m1 m2 m3 => ⟨m1, m2, m3⟩
  | .lt m1 m2 m3 => ⟨m1, m2, m3⟩
  | .eq m1 m2 m3 => ⟨m1, m2, m3⟩
  | .arb m1 m2 m3 => ⟨m1, m2, m3⟩
  | .halt m1 m2 m3 => ⟨m1, m2, m3⟩

/-- The format of an instruction (R82, R83). -/
def Instr.format : Instr → Format
  | .add _ _ _ => .RRW
  | .mul _ _ _ => .RRW
  | .inp _ _ _ => .W
  | .out _ _ _ => .R
  | .jt _ _ _ => .RR
  | .jf _ _ _ => .RR
  | .lt _ _ _ => .RRW
  | .eq _ _ _ => .RRW
  | .arb _ _ _ => .R
  | .halt _ _ _ => .N

/-- How many cells a format occupies (R82). -/
def Format.len : Format → Nat
  | .RRW => 4
  | .W => 2
  | .R => 2
  | .RR => 3
  | .N => 1

/-- `len` of an instruction: a function of its opcode alone (R90). -/
def Instr.len (i : Instr) : Nat := i.format.len

/-- The instruction word: `w = 10000*m3 + 1000*m2 + 100*m1 + op` (R81). -/
def encode (i : Instr) : Int :=
  ((10000 * i.modes.m3.digit + 1000 * i.modes.m2.digit + 100 * i.modes.m1.digit + i.opcode : Nat) : Int)

/-- The words of a whole instruction: its instruction word and one parameter per slot of its format (R80, R82). `none`: not
as many parameters as the format has slots. -/
def encodeWords (i : Instr) (params : List Int) : Option (List Int) :=
  if params.length + 1 = i.len then some (encode i :: params) else none

/-- The `k`-th memory word of an opcode-table instruction whose bits are `w`: bits `128*k` and up, read as a two's-complement
word of the default width (R10, I6; log 11). -/
def tableCell (nbits w k : Nat) : Int :=
  let b := Config.tableWordBits
  let v := (w % 2 ^ nbits) >>> (b * k) % 2 ^ b
  if v < 2 ^ (b - 1) then (v : Int) else (v : Int) - (2 ^ b : Nat)

/-- What the decoder reads from an opcode-table word: its first memory word is the instruction word. -/
def decodeTableWord (nbits w : Nat) : Option Instr :=
  (decodeWord (tableCell nbits w 0)).toOption

end Sys2Proof
end

