-- ==== Sys2Proof/Machine/State.lean ====
section
/-! DEFINITION. The state of one Machine (spec 10_state.md), as plain data, and its state after reset. -/

namespace Sys2Proof.Machine

/-- The run state (R28). -/
inductive RunState where
  | running
  | paused
  | halted
  | faulted
  deriving DecidableEq, Repr

/-- `fault_code` (R27, R280). Codes 6 and 7 are never produced, so they have no constructor. -/
inductive FaultCode where
  | none
  | invalidOpcode
  | addressError
  | invalidMode
  | overflow
  | capacityExceeded
  deriving DecidableEq, Repr

/-- `addr_cause` (R27). -/
inductive AddrCause where
  | none
  | negativeAddress
  | immediateWrite
  | negativeTarget
  deriving DecidableEq, Repr

/-- The fault record: five fields (R27, C13). -/
structure FaultRecord where
  code : FaultCode
  cause : AddrCause
  ip : Nat
  word : Int
  info : Int
  deriving DecidableEq, Repr

/-- The cleared fault record: all fields 0 (R36). -/
def FaultRecord.clear : FaultRecord := ⟨.none, .none, 0, 0, 0⟩

/-- What an instruction can raise (R14, R280), with the value `fault_info` takes. The machine TAKES a raised fault: the step
answers a next state that is Faulted with its record written (R290), so `step` and `exec` never answer `Outcome.fault`
(log 8). All are safe: they are the faults the spec names. -/
inductive Fault where
  /-- Raised by the fetch of a negative word or of an unrecognised opcode (R112). Safe. -/
  | invalidOpcode
  /-- Raised by the resolver and by `MemRead`/`MemWrite` for an address below 0 (R52, R121). Safe. -/
  | negativeAddress (a : Int)
  /-- Raised by the resolver for a write slot in immediate mode (R120). Safe. -/
  | immediateWrite (k : Slot)
  /-- Raised by a taken JT or JF with a target below 0 (R190). Safe. -/
  | negativeTarget (t : Int)
  /-- Raised by the fetch of a legal opcode with a bad mode digit or six or more digits (R113). Safe. -/
  | invalidMode
  /-- Raised by ADD, MUL and ARB for a result outside the word range (R124). Safe. -/
  | overflow
  /-- Raised by every access at or above `MEM_LIMIT` (R52, R121). Safe. -/
  | capacityExceeded (a : Int)
  deriving DecidableEq, Repr

/-- No meaning refuses: every instruction of the table is modelled. -/
inductive Refusal where
  /-- Raised by an arm of `exec` whose instruction has no meaning yet; no arm does. Safe. -/
  | notModelled (mnemonic : String)
  deriving DecidableEq, Repr

/-- The tape `M` (R20): cells by rising address, no cell holding 0, and 0 at every unlisted address (R54; log 5). -/
structure Memory where
  cells : List (Nat × Int)
  deriving DecidableEq, Repr

/-- Memory with nothing listed: every cell reads 0. -/
def Memory.empty : Memory := ⟨[]⟩

/-- The canonical form: addresses strictly rising, no listed cell 0. Equal memories are then equal lists. -/
abbrev Memory.wf (m : Memory) : Prop :=
  m.cells.Pairwise (fun c d => c.1 < d.1) ∧ ∀ c ∈ m.cells, c.2 ≠ 0

/-- The state of one Machine (R20 to R28). `cfg` is the model's own: the configuration the Machine was made with, which
nothing changes (R35; log 1). -/
structure State where
  cfg : Config
  mem : Memory
  ip : Nat
  rb : Int
  modes : Modes
  inq : List Int
  outlog : List Int
  state : RunState
  fault : FaultRecord
  deriving DecidableEq, Repr

/-- The reset state of R36 around a loaded memory. -/
def State.resetWith (c : Config) (m : Memory) : State :=
  { cfg := c, mem := m, ip := 0, rb := 0, modes := ⟨.position, .position, .position⟩, inq := [], outlog := [],
    state := .running, fault := FaultRecord.clear }

/-- The Machine right after reset with the spec's default parameters and no program loaded: the state construct gives for
the empty program, which is legal (R36, R242; log 11). -/
def State.reset : State := State.resetWith Config.standard Memory.empty

end Sys2Proof.Machine
end

