-- ==== Sys2Proof/Machine/Flags.lean ====
section
/-! DEFINITION. CORE has no flags (spec R31). This file holds what stands in their place: the range check of a computed value
(R124), the 0/1 result of a compare (R200, R205), the truth test of a jump (R180), and the bits of the STATUS word
(R28, R29). -/

namespace Sys2Proof.Machine

/-- Whether an integer is a word: `WMIN <= v <= WMAX`, and every integer at `INF` (R10). -/
def fits (c : Config) (v : Int) : Bool :=
  match c.wordBits with
  | none => true
  | some w => decide (wordMin w ≤ v) && decide (v ≤ wordMax w)

/-- `Checked(v)` (R124). -/
def checked (c : Config) (v : Int) : Except Fault Int :=
  if fits c v then .ok v else .error .overflow

/-- The result of a compare: 1 if it holds, else 0 (R31, R200, R205). -/
def boolWord (b : Bool) : Int := if b then 1 else 0

/-- "any non-zero `a` is true, negative values included" (R180). -/
def isNonZero (a : Int) : Bool := decide (a ≠ 0)

/-- `state[1:0]` (R28). -/
def RunState.bits : RunState → BitVec 2
  | .running => 0
  | .paused => 1
  | .halted => 2
  | .faulted => 3

/-- The three bits of `fault_code` (R27, R280). -/
def FaultCode.bits : FaultCode → BitVec 3
  | .none => 0
  | .invalidOpcode => 1
  | .addressError => 2
  | .invalidMode => 3
  | .overflow => 4
  | .capacityExceeded => 5

/-- The two bits of `addr_cause` (R27). -/
def AddrCause.bits : AddrCause → BitVec 2
  | .none => 0
  | .negativeAddress => 1
  | .immediateWrite => 2
  | .negativeTarget => 3

/-- `STATUS` (R29): bit 7 reads 0, `[6:5]` addr_cause, `[4:2]` fault_code, `[1:0]` state. -/
def statusWord (s : State) : BitVec 8 :=
  (0 : BitVec 1) ++ s.fault.cause.bits ++ s.fault.code.bits ++ s.state.bits

end Sys2Proof.Machine
end

