-- ==== Sys2Proof/Machine/Ops.lean ====
section
/-! DEFINITION. The named operations over memory and registers, and TAKING A FAULT as one operation (spec R14, R290). There
is no return from a fault (R291); what stands beside it is the wake-up of a Paused Machine (R131). -/

namespace Sys2Proof.Machine

/-! ### The tape -/

/-- The word a list of cells holds at an address; 0 where none is listed (R54). -/
def cellsGet : List (Nat × Int) → Nat → Int
  | [], _ => 0
  | (b, v) :: rest, a => if a = b then v else cellsGet rest a

/-- One cell changed, the canonical form kept: a 0 is not listed. -/
def cellsSet : List (Nat × Int) → Nat → Int → List (Nat × Int)
  | [], a, v => if v = 0 then [] else [(a, v)]
  | (b, u) :: rest, a, v =>
    if a < b then (if v = 0 then (b, u) :: rest else (a, v) :: (b, u) :: rest)
    else if a = b then (if v = 0 then rest else (a, v) :: rest)
    else (b, u) :: cellsSet rest a v

/-- `M[a]`. -/
def Memory.get (m : Memory) (a : Nat) : Int := cellsGet m.cells a

/-- `M[a] <- v`: every other cell keeps its value (R53). -/
def Memory.set (m : Memory) (a : Nat) (v : Int) : Memory := ⟨cellsSet m.cells a v⟩

/-- A program "copied into memory" from an address upward (R36, R60); its zeros are not listed. -/
def cellsOfProgram : Nat → List Int → List (Nat × Int)
  | _, [] => []
  | a, v :: rest => if v = 0 then cellsOfProgram (a + 1) rest else (a, v) :: cellsOfProgram (a + 1) rest

/-- The memory after construct or reboot: `M[a] = p_a` below the program's length and 0 above (R36). -/
def Memory.ofProgram (p : List Int) : Memory := ⟨cellsOfProgram 0 p⟩

/-- Whether a non-negative integer is an address: `a < MEM_LIMIT` (R10, R51). -/
def inMemory (c : Config) (a : Nat) : Bool :=
  match c.memLimit with
  | none => true
  | some l => decide (a < l)

/-- The two address checks, in the order every rule makes them (R52, R53, R121). -/
def checkAddr (c : Config) (a : Int) : Except Fault Nat :=
  if a < 0 then .error (.negativeAddress a)
  else if inMemory c a.toNat then .ok a.toNat
  else .error (.capacityExceeded a)

/-- `MemRead(a, 1)` (R52). -/
def memRead (s : State) (a : Int) : Except Fault Int := do
  let n ← checkAddr s.cfg a
  pure (s.mem.get n)

/-- `MemWrite(a, 1, v)` (R53). -/
def memWrite (s : State) (a : Int) (v : Int) : Except Fault State := do
  let n ← checkAddr s.cfg a
  pure { s with mem := s.mem.set n v }

/-! ### Registers and queues -/

/-- Decode's write of the mode latch (R24, R113; log 18). -/
def State.latch (s : State) (m : Modes) : State := { s with modes := m }

/-- The pointer advance `ip <- ip0 + len` (R126). -/
def State.advance (s : State) (len : Nat) : State := { s with ip := s.ip + len }

/-- A taken jump: `ip <- t`, and `AddressError(NegativeTarget, t)` when `t < 0` (R190). -/
def jumpTo (s : State) (t : Int) : Except Fault State :=
  if t < 0 then .error (.negativeTarget t) else .ok { s with ip := t.toNat }

/-- `outlog <- outlog ++ [v]` (R165). -/
def State.emit (s : State) (v : Int) : State := { s with outlog := s.outlog ++ [v] }

/-- The Paused transition of an IN on an empty queue: nothing else changes (R160). -/
def State.pause (s : State) : State := { s with state := .paused }

/-- The Halted transition (R225). -/
def State.halt (s : State) : State := { s with state := .halted }

/-- Paused back to Running, in every other run state nothing: the first line of `Resume()` (R131). -/
def State.wake (s : State) : State :=
  if s.state = .paused then { s with state := .running } else s

/-! ### Taking a fault -/

/-- `fault_code` of a fault (R280). -/
def Fault.code : Fault → FaultCode
  | .invalidOpcode => .invalidOpcode
  | .negativeAddress _ => .addressError
  | .immediateWrite _ => .addressError
  | .negativeTarget _ => .addressError
  | .invalidMode => .invalidMode
  | .overflow => .overflow
  | .capacityExceeded _ => .capacityExceeded

/-- `addr_cause` of a fault (R280). -/
def Fault.cause : Fault → AddrCause
  | .invalidOpcode => .none
  | .negativeAddress _ => .negativeAddress
  | .immediateWrite _ => .immediateWrite
  | .negativeTarget _ => .negativeTarget
  | .invalidMode => .none
  | .overflow => .none
  | .capacityExceeded _ => .none

/-- `fault_info` of a fault (R27, R280). -/
def Fault.info : Fault → Int
  | .invalidOpcode => 0
  | .negativeAddress a => a
  | .immediateWrite k => k.num
  | .negativeTarget t => t
  | .invalidMode => 0
  | .overflow => 0
  | .capacityExceeded a => a

/-- The record a fault leaves at an instruction (R27). -/
def Fault.record (f : Fault) (ip0 : Nat) (w : Int) : FaultRecord :=
  ⟨f.code, f.cause, ip0, w, f.info⟩

/-- TAKING A FAULT (R14, R290): `M`, `ip`, `rb`, `inq` and `outlog` keep their values, `state <- Faulted`, and the record takes the
fault, `ip0` and the fetched word. -/
def State.enterFault (s : State) (w : Int) (f : Fault) : State :=
  { s with state := .faulted, fault := f.record s.ip w }

/-- The fault of a rejected word (R112, R113). -/
def faultOfReject : DecodeReject → Fault
  | .invalidOpcode => .invalidOpcode
  | .invalidMode => .invalidMode

/-! ### One instruction around its handler -/

/-- Run a handler (R110, R127): decode's write of the latch, then the handler on that state; its effects all together, or the
fault it raised and none of them. `fault_word` is the word at `ip0`, which nothing has changed before commit (log 7). -/
def runHandler (m : Modes) (s : State) (handler : State → Except Fault State) :
    Host.Outcome State Fault Refusal :=
  match handler (s.latch m) with
  | .ok t => .next t
  | .error f => .next ((s.latch m).enterFault (s.mem.get s.ip) f)

/-- Fetch and decode (R110 to R113): the instruction at `ip`, or the Faulted state of a fetch that faults. `fault_word` is 0 when
the fetch itself faulted (R111), and the rejected word otherwise. -/
def fetchInstr (s : State) : Except State Instr :=
  match memRead s s.ip with
  | .error f => .error (s.enterFault 0 f)
  | .ok w =>
    match decodeWord w with
    | .error r => .error (s.enterFault w (faultOfReject r))
    | .ok i => .ok i

end Sys2Proof.Machine
end

