-- ==== Sys2Proof/Machine/Operands.lean ====
section
/-! DEFINITION. The parameter-mode resolver and address translator (spec R117 to R123), every operand form. -/

namespace Sys2Proof.Machine

/-- `ResolveAddr(k, access)` (R117 to R121): the address a slot resolves to under its latched mode, or the first fault its checks
reach. -/
def resolveAddr (s : State) (k : Slot) (access : Access) : Except Fault Nat :=
  match s.modes.of k with
  | .immediate =>
    match access with
    | .write => .error (.immediateWrite k)
    | .read => checkAddr s.cfg ((s.ip + k.num : Nat) : Int)
  | .position => do
    let raw ← memRead s ((s.ip + k.num : Nat) : Int)
    checkAddr s.cfg raw
  | .relative => do
    let raw ← memRead s ((s.ip + k.num : Nat) : Int)
    checkAddr s.cfg (s.rb + raw)

/-- `ReadOperand(k)` "composes resolution with a read" (R122). -/
def readOperand (s : State) (k : Slot) : Except Fault Int := do
  let a ← resolveAddr s k .read
  memRead s (a : Int)

/-- The common handler of format RRW (R82, R116, R123): both operands, then the destination, then the ALU's checked result, then
the commit `MemWrite(d, 1, r); ip <- ip0 + 4`. -/
def binaryHandler (alu : Config → Int → Int → Except Fault Int) (s : State) : Except Fault State := do
  let a ← readOperand s .one
  let b ← readOperand s .two
  let d ← resolveAddr s .three .write
  let r ← alu s.cfg a b
  let t ← memWrite s (d : Int) r
  pure (t.advance 4)

/-- The common handler of format RR (R116, R190): both operands are read whether or not the jump is taken. -/
def jumpHandler (taken : Int → Bool) (s : State) : Except Fault State := do
  let a ← readOperand s .one
  let t ← readOperand s .two
  if taken a then jumpTo s t else pure (s.advance 3)

end Sys2Proof.Machine
end

