-- ==== Sys2Proof/Machine/Arithmetic.lean ====
section
/-! DEFINITION. ADD and MUL (spec 41_arithmetic.md). -/

namespace Sys2Proof.Machine

/-- ADD (R140): `mem[dest] = val(a) + val(b)`, exact and range-checked. -/
def execAdd (m1 m2 m3 : Mode) (s : State) : Host.Outcome State Fault Refusal :=
  runHandler ⟨m1, m2, m3⟩ s (binaryHandler fun c a b => checked c (a + b))

/-- MUL (R145): `mem[dest] = val(a) * val(b)`, exact and range-checked. -/
def execMul (m1 m2 m3 : Mode) (s : State) : Host.Outcome State Fault Refusal :=
  runHandler ⟨m1, m2, m3⟩ s (binaryHandler fun c a b => checked c (a * b))

end Sys2Proof.Machine
end

