-- ==== Sys2Proof/Machine/BaseHalt.lean ====
section
/-! DEFINITION. ARB and HALT (spec 45_relative_base_and_halt.md). -/

namespace Sys2Proof.Machine

/-- The handler of ARB (R220): `rb <- Checked(rb + a)`; in relative mode the operand's address uses the old `rb`. -/
def rebaseHandler (s : State) : Except Fault State := do
  let a ← readOperand s .one
  let n ← checked s.cfg (s.rb + a)
  pure ({ s with rb := n }.advance 2)

/-- ARB (R220). -/
def execArb (m1 m2 m3 : Mode) (s : State) : Host.Outcome State Fault Refusal :=
  runHandler ⟨m1, m2, m3⟩ s rebaseHandler

/-- The handler of HALT (R225): `state <- Halted`, `ip` stays. -/
def haltHandler (s : State) : Except Fault State := .ok s.halt

/-- HALT (R225). -/
def execHalt (m1 m2 m3 : Mode) (s : State) : Host.Outcome State Fault Refusal :=
  runHandler ⟨m1, m2, m3⟩ s haltHandler

end Sys2Proof.Machine
end

