-- ==== Sys2Proof/Machine/Compare.lean ====
section
/-! DEFINITION. LT and EQ (spec 44_compare.md). Their result is 0 or 1 and is not range-checked. -/

namespace Sys2Proof.Machine

/-- LT (R200): signed and strict. -/
def execLt (m1 m2 m3 : Mode) (s : State) : Host.Outcome State Fault Refusal :=
  runHandler ⟨m1, m2, m3⟩ s (binaryHandler fun _ a b => .ok (boolWord (decide (a < b))))

/-- EQ (R205): exact integer equality. -/
def execEq (m1 m2 m3 : Mode) (s : State) : Host.Outcome State Fault Refusal :=
  runHandler ⟨m1, m2, m3⟩ s (binaryHandler fun _ a b => .ok (boolWord (decide (a = b))))

end Sys2Proof.Machine
end

