-- ==== Sys2Proof/Machine/InputOutput.lean ====
section
/-! DEFINITION. IN and OUT (spec 42_io.md). -/

namespace Sys2Proof.Machine

/-- The handler of IN (R160): the destination is resolved first; an empty queue pauses the Machine and consumes nothing, otherwise
the front word goes to the destination. -/
def inputHandler (s : State) : Except Fault State := do
  let d ← resolveAddr s .one .write
  match s.inq with
  | [] => pure s.pause
  | v :: rest =>
    let t ← memWrite { s with inq := rest } (d : Int) v
    pure (t.advance 2)

/-- The handler of OUT (R165): append `val(a)` to the output log. -/
def outputHandler (s : State) : Except Fault State := do
  let a ← readOperand s .one
  pure ((s.emit a).advance 2)

/-- IN (R160). -/
def execIn (m1 m2 m3 : Mode) (s : State) : Host.Outcome State Fault Refusal :=
  runHandler ⟨m1, m2, m3⟩ s inputHandler

/-- OUT (R165). -/
def execOut (m1 m2 m3 : Mode) (s : State) : Host.Outcome State Fault Refusal :=
  runHandler ⟨m1, m2, m3⟩ s outputHandler

end Sys2Proof.Machine
end

