-- ==== Sys2Proof/Machine/Jumps.lean ====
section
/-! DEFINITION. JT and JF (spec 43_jumps.md). -/

namespace Sys2Proof.Machine

/-- JT (R180): if `val(a) != 0`, `ip := val(target)`. -/
def execJt (m1 m2 m3 : Mode) (s : State) : Host.Outcome State Fault Refusal :=
  runHandler ⟨m1, m2, m3⟩ s (jumpHandler fun a => isNonZero a)

/-- JF (R185): if `val(a) == 0`, `ip := val(target)`. -/
def execJf (m1 m2 m3 : Mode) (s : State) : Host.Outcome State Fault Refusal :=
  runHandler ⟨m1, m2, m3⟩ s (jumpHandler fun a => !isNonZero a)

end Sys2Proof.Machine
end

