-- ==== Sys2Proof/Machine/Step.lean ====
section
/-! DEFINITION. One step (spec R110), and how an opcode-table word is placed where the next step fetches it. -/

namespace Sys2Proof.Machine

/-- `Step()` (R110): one whole instruction, and only when Running. A Machine that is Paused, Halted or Faulted executes nothing
(R129, R130, R291): its step is the identity (log 6). -/
def step (s : State) : Host.Outcome State Fault Refusal :=
  match s.state with
  | .running =>
    match fetchInstr s with
    | .ok i => exec i s
    | .error t => .next t
  | .paused => .next s
  | .halted => .next s
  | .faulted => .next s

/-- The state with an opcode-table instruction stored at `ip` and up, over the longest instruction's four cells, and Running, so
that the next step runs it: it stands for the program being loaded from outside (R242, R256; log 11). -/
def State.withFetchWord (s : State) (nbits w : Nat) : State :=
  { s with
    mem := (((s.mem.set s.ip (tableCell nbits w 0)).set (s.ip + 1) (tableCell nbits w 1)).set (s.ip + 2)
      (tableCell nbits w 2)).set (s.ip + 3) (tableCell nbits w 3)
    state := .running }

end Sys2Proof.Machine
end

