-- ==== Sys2Proof/Machine/HostOps.lean ====
section
/-! DEFINITION. The host's operations on one Machine, each one indivisible transaction (spec 50_host_interface.md). A host error
is a result that comes with no new state (R241). -/

namespace Sys2Proof.Machine

/-- The host errors (R241). -/
inductive HostError where
  | emptyOutput
  | hostAddressError
  | hostCapacity
  | valueRange
  | selfDrain
  | unknownPort
  | busy
  deriving DecidableEq, Repr

/-- The code of a host error (R241). -/
def HostError.code : HostError → Nat
  | .emptyOutput => 1
  | .hostAddressError => 2
  | .hostCapacity => 3
  | .valueRange => 4
  | .selfDrain => 5
  | .unknownPort => 6
  | .busy => 7

/-- The result code of an operation: 0 is OK (R241). -/
def hostCode {α : Type} : Except HostError α → Nat
  | .ok _ => 0
  | .error e => e.code

/-- Whether a program has at most `MEM_LIMIT` words (R242). -/
def programFits (c : Config) (p : List Int) : Bool :=
  match c.memLimit with
  | none => true
  | some l => decide (p.length ≤ l)

/-- construct(program) (R242): the reset state of R36 with the program in memory; ValueRange and HostCapacity create
nothing (log 12). -/
def construct (c : Config) (p : List Int) : Except HostError State :=
  if p.all (fits c) = false then .error .valueRange
  else if programFits c p = false then .error .hostCapacity
  else .ok (State.resetWith c (Memory.ofProgram p))

/-- reboot(program) (R256): the same reset state, in an existing Machine, accepted in every run state. -/
def reboot (p : List Int) (s : State) : Except HostError State :=
  if p.all (fits s.cfg) = false then .error .valueRange
  else if programFits s.cfg p = false then .error .hostCapacity
  else .ok (State.resetWith s.cfg (Memory.ofProgram p))

/-- `RunLoop()` (R129) under fuel; `none`: still Running when the fuel ran out, which is no outcome of the Machine (R132). -/
def runLoop : Nat → State → Option State
  | 0, s => if s.state = .running then none else some s
  | fuel + 1, s =>
    if s.state = .running then
      match step s with
      | .next t => runLoop fuel t
      | .fault _ => none
      | .refused _ => none
    else some s

/-- `RunLoop()` (R129) without fuel: the loop started in the first state returns in the second. A run that never ends reaches
nothing (R132). -/
inductive RunsTo : State → State → Prop where
  | exit (s : State) (h : s.state ≠ .running) : RunsTo s s
  | more (s t u : State) (h : s.state = .running) (hs : step s = .next t) (ht : RunsTo t u) : RunsTo s u

/-- What run() and resume() return: the exit state, with the fault record when it is Faulted (R243). -/
structure ExitReport where
  state : RunState
  fault : Option FaultRecord
  deriving DecidableEq, Repr

/-- The report of a Machine that a run has left (R243). -/
def exitReport (s : State) : ExitReport :=
  ⟨s.state, if s.state = .faulted then some s.fault else none⟩

/-- run() (R130, R243), under fuel. -/
def run (fuel : Nat) (s : State) : Option (State × ExitReport) :=
  (runLoop fuel s).map fun t => (t, exitReport t)

/-- resume() (R131, R244), under fuel: Paused becomes Running, then the run loop. -/
def resume (fuel : Nat) (s : State) : Option (State × ExitReport) :=
  run fuel s.wake

/-- is_running() (R245). -/
def isRunning (s : State) : Bool :=
  match s.state with
  | .running => true
  | .paused => true
  | .halted => false
  | .faulted => false

/-- The two checks of a host address (R247, R248). -/
def hostAddr (c : Config) (a : Int) : Except HostError Nat :=
  if a < 0 then .error .hostAddressError
  else if inMemory c a.toNat then .ok a.toNat
  else .error .hostCapacity

/-- inject(address, value) (R247), accepted in every run state. -/
def inject (s : State) (a : Int) (v : Int) : Except HostError State := do
  let n ← hostAddr s.cfg a
  if fits s.cfg v then pure { s with mem := s.mem.set n v } else .error .valueRange

/-- read(address) (R248), accepted in every run state. -/
def hostRead (s : State) (a : Int) : Except HostError Int := do
  let n ← hostAddr s.cfg a
  pure (s.mem.get n)

/-- extend_input(values) (R249): to the back of the queue, all of them or none; the run state stays. -/
def extendInput (s : State) (vs : List Int) : Except HostError State :=
  if vs.all (fits s.cfg) then .ok { s with inq := s.inq ++ vs } else .error .valueRange

/-- drain_output_into(other) (R250), for two different Machines: source and target after it (log 13). SelfDrain, which needs
the host's names of the Machines, is in `Session.issue`. -/
def drainOutputInto (source target : State) : State × State :=
  ({ source with outlog := [] }, { target with inq := target.inq ++ source.outlog })

/-- last_output() (R252). -/
def lastOutput (s : State) : Except HostError Int :=
  match s.outlog.getLast? with
  | none => .error .emptyOutput
  | some v => .ok v

/-- dump_output() (R253): EmptyOutput on an empty log (C3). -/
def dumpOutput (s : State) : Except HostError (List Int) :=
  match s.outlog with
  | [] => .error .emptyOutput
  | v :: vs => .ok (v :: vs)

/-- read_status(index) (R30, R254). -/
def readStatus (s : State) (index : Int) : Except HostError Int :=
  if index = 0 then .ok ((statusWord s).toNat : Int)
  else if index = 1 then .ok (s.fault.ip : Int)
  else if index = 2 then .ok s.fault.word
  else if index = 3 then .ok s.fault.info
  else .error .unknownPort

/-- clone() (R255): a new Machine equal in every field. -/
def clone (s : State) : State := s

end Sys2Proof.Machine
end

