-- ==== Sys2Proof/Machine/ProgramText.lean ====
section
/-! DEFINITION. Decimal integers as text, and the program text of spec R257: "comma-separated decimal integers (no whitespace
significance)". Text is a list of characters (log 17). -/

namespace Sys2Proof.Machine

/-- A white-space character. -/
def isSpace (c : Char) : Bool := c == ' ' || c == '\t' || c == '\n' || c == '\r'

/-- The value of a decimal digit. -/
def digitValue (c : Char) : Option Nat :=
  if '0'.toNat ≤ c.toNat ∧ c.toNat ≤ '9'.toNat then some (c.toNat - '0'.toNat) else none

/-- The value of a run of decimal digits, `acc` what has been read before; every character must be a digit. -/
def readDigits : Nat → List Char → Option Nat
  | acc, [] => some acc
  | acc, c :: cs =>
    match digitValue c with
    | none => none
    | some d => readDigits (10 * acc + d) cs

/-- One or more decimal digits. -/
def readNat : List Char → Option Nat
  | [] => none
  | c :: cs => readDigits 0 (c :: cs)

/-- "an optional `-` followed by one or more decimal digits" (R257). -/
def readInt : List Char → Option Int
  | '-' :: cs => (readNat cs).map fun (n : Nat) => -(n : Int)
  | cs => (readNat cs).map fun (n : Nat) => (n : Int)

/-- Cut at every separator: one piece more than there are separators. -/
def splitOnChar (sep : Char) : List Char → List (List Char)
  | [] => [[]]
  | c :: cs =>
    if c = sep then [] :: splitOnChar sep cs
    else match splitOnChar sep cs with
      | [] => [[c]]
      | piece :: pieces => (c :: piece) :: pieces

/-- Every piece an integer. -/
def readInts : List (List Char) → Option (List Int)
  | [] => some []
  | p :: ps =>
    match readInt p, readInts ps with
    | some v, some vs => some (v :: vs)
    | _, _ => none

/-- The program a text stands for (R257): whitespace is ignored anywhere, text with no integers is the empty program, any other
text than single-comma separated integers is not a program. `none`: not a program, with no host error (log 28). A text with no
integer that is not blank, such as a lone comma, is read as one of those others (log 29). -/
def readProgram (text : List Char) : Option (List Int) :=
  match text.filter (fun c => !isSpace c) with
  | [] => some []
  | c :: cs => readInts (splitOnChar ',' (c :: cs))

/-- The decimal digits of a natural number, most significant first; `fuel` bounds their count. -/
def natDigits : Nat → Nat → List Char → List Char
  | 0, _, acc => acc
  | fuel + 1, n, acc =>
    let acc' := Char.ofNat ('0'.toNat + n % 10) :: acc
    if n < 10 then acc' else natDigits fuel (n / 10) acc'

/-- A natural number in decimal. -/
def writeNat (n : Nat) : List Char := natDigits (n + 1) n []

/-- An integer in decimal. -/
def writeInt (v : Int) : List Char := if v < 0 then '-' :: writeNat v.natAbs else writeNat v.natAbs

/-- A program as text (R257). -/
def writeProgram : List Int → List Char
  | [] => []
  | [v] => writeInt v
  | v :: w :: vs => writeInt v ++ ',' :: writeProgram (w :: vs)

end Sys2Proof.Machine
end

