-- ==== Sys2Proof/Machine/Assembler.lean ====
section
/-! DEFINITION. The spec's assembler syntax, directives, pseudo-instructions and disassembly (R93 to R97). It is "the spec's own
choice and carries no hardware meaning" (R93): nothing of the step uses it. Points the rules leave open: log 16, log 22 to log 27. -/

namespace Sys2Proof.Machine

/-! ### Abstract syntax -/

/-- A label's or mnemonic's name. -/
abbrev AsmName := List Char

/-- An operand value (R94): a decimal literal, or a label, whose value is its address; `negAddr` is the `n` of `[rb-n]` when it is
a label. -/
inductive AsmVal where
  | lit (v : Int)
  | addr (name : AsmName)
  | negAddr (name : AsmName)
  deriving DecidableEq, Repr

/-- An operand (R94): its mode digit and its parameter word. -/
structure AsmOperand where
  mode : Mode
  val : AsmVal
  deriving DecidableEq, Repr

/-- What a line places (R93, R95, R96). -/
inductive AsmStmt where
  | instr (op : Nat) (operands : List AsmOperand)
  | mov (source dest : AsmOperand)
  | jmp (target : AsmOperand)
  | nop
  | words (vs : List AsmVal)
  deriving DecidableEq, Repr

/-- A line (R93). -/
structure AsmLine where
  label : Option AsmName
  stmt : Option AsmStmt
  deriving DecidableEq, Repr

/-! ### Assembly -/

/-- An immediate literal operand. -/
def AsmOperand.imm (v : Int) : AsmOperand := ⟨.immediate, .lit v⟩

/-- The pseudo-instructions (R96). -/
def AsmStmt.expand : AsmStmt → AsmStmt
  | .instr op xs => .instr op xs
  | .mov s d => .instr 1 [s, .imm 0, d]
  | .jmp t => .instr 5 [.imm 1, t]
  | .nop => .instr 5 [.imm 0, .imm 0]
  | .words vs => .words vs

/-- How many words a statement places (R82, R95, R96). -/
def AsmStmt.size (st : AsmStmt) : Nat :=
  match st.expand with
  | .instr _ xs => xs.length + 1
  | .words vs => vs.length
  | .mov _ _ => 0
  | .jmp _ => 0
  | .nop => 0

/-- The mode digits of an operand list; 0 for every slot the format lacks (R92). -/
def modesOfOperands (xs : List AsmOperand) : Modes :=
  let mode := fun k => ((xs[k]?).map AsmOperand.mode).getD .position
  ⟨mode 0, mode 1, mode 2⟩

/-- The instruction of an opcode and its operands, in the canonical encoding (R92). `none`: not an opcode, not as many operands as
its format has slots, or an immediate operand in a write slot (R94). -/
def asmInstr (op : Nat) (xs : List AsmOperand) : Option Instr :=
  match instrOfOpcode op (modesOfOperands xs) with
  | none => none
  | some i => if xs.length + 1 = i.len ∧ i.wellFormed = true then some i else none

/-- The addresses of the labels (R95): words are placed from address 0 upward with no gaps. `none`: a label twice. Label names
are case-sensitive (log 22). -/
def labelTable : Nat → List AsmLine → Option (List (AsmName × Nat))
  | _, [] => some []
  | a, l :: ls =>
    match labelTable (a + (l.stmt.map AsmStmt.size).getD 0) ls with
    | none => none
    | some table =>
      match l.label with
      | none => some table
      | some name => if (table.lookup name).isSome then none else some ((name, a) :: table)

/-- The word of an operand value (R94). `none`: an unknown label. -/
def AsmVal.word (table : List (AsmName × Nat)) : AsmVal → Option Int
  | .lit v => some v
  | .addr name => (table.lookup name).map fun (a : Nat) => (a : Int)
  | .negAddr name => (table.lookup name).map fun (a : Nat) => -(a : Int)

/-- The words of several operand values. -/
def asmVals (table : List (AsmName × Nat)) : List AsmVal → Option (List Int)
  | [] => some []
  | v :: vs =>
    match v.word table, asmVals table vs with
    | some w, some ws => some (w :: ws)
    | _, _ => none

/-- The words a statement places (R80, R81, R95, R96). -/
def AsmStmt.emit (table : List (AsmName × Nat)) (st : AsmStmt) : Option (List Int) :=
  match st.expand with
  | .instr op xs =>
    match asmInstr op xs, asmVals table (xs.map AsmOperand.val) with
    | some i, some ws => encodeWords i ws
    | _, _ => none
  | .words vs => asmVals table vs
  | .mov _ _ => none
  | .jmp _ => none
  | .nop => none

/-- The words of several lines, in order (R95). -/
def emitLines (table : List (AsmName × Nat)) : List AsmLine → Option (List Int)
  | [] => some []
  | l :: ls =>
    match (match l.stmt with
      | none => some []
      | some st => st.emit table), emitLines table ls with
    | some ws, some rest => some (ws ++ rest)
    | _, _ => none

/-- The encoding of a program: "the sequence of placed words, which is the program passed to construct" (R95). -/
def assemble (ls : List AsmLine) : Option (List Int) :=
  match labelTable 0 ls with
  | none => none
  | some table => emitLines table ls

/-! ### Mnemonics (R83, R96) -/

/-- The mnemonics of R83 with their opcodes. -/
def mnemonics : List (AsmName × Nat) :=
  [(['A', 'D', 'D'], 1), (['M', 'U', 'L'], 2), (['I', 'N'], 3), (['O', 'U', 'T'], 4), (['J', 'T'], 5),
   (['J', 'F'], 6), (['L', 'T'], 7), (['E', 'Q'], 8), (['A', 'R', 'B'], 9), (['H', 'A', 'L', 'T'], 99)]

/-- The mnemonic of an opcode. -/
def mnemonicOf (op : Nat) : AsmName := ((mnemonics.find? fun p => p.2 == op).map Prod.fst).getD []

/-- The statement of a mnemonic, case-insensitive (R93), and its operands. The pseudo-instructions of R96 are taken in any case too
(log 22). -/
def stmtOfMnemonic (name : AsmName) (xs : List AsmOperand) : Option AsmStmt :=
  let upper := name.map Char.toUpper
  match mnemonics.lookup upper with
  | some op => some (.instr op xs)
  | none =>
    if upper = ['M', 'O', 'V'] then
      match xs with
      | [s, d] => some (.mov s d)
      | _ => none
    else if upper = ['J', 'M', 'P'] then
      match xs with
      | [t] => some (.jmp t)
      | _ => none
    else if upper = ['N', 'O', 'P'] then
      match xs with
      | [] => some .nop
      | _ => none
    else none

/-! ### The text of a line (R93) -/

/-- A run of letters, digits and underscores, or one other character that is no white space. -/
inductive AsmTok where
  | word (cs : List Char)
  | sym (c : Char)
  deriving DecidableEq, Repr

/-- The characters of a word. -/
def isWordChar (c : Char) : Bool := c.isAlpha || c.isDigit || c == '_'

/-- A name: a word that does not begin with a digit. -/
def isName : List Char → Bool
  | [] => false
  | c :: _ => isWordChar c && !c.isDigit

/-- A finished word, held in reverse, before the tokens after it. -/
def flushWord (cur : List Char) (ts : List AsmTok) : List AsmTok :=
  match cur with
  | [] => ts
  | c :: cs => .word (c :: cs).reverse :: ts

/-- The tokens of a line, `cur` the word being read, in reverse. -/
def lexLine : List Char → List Char → List AsmTok
  | cur, [] => flushWord cur []
  | cur, c :: cs =>
    if isWordChar c then lexLine (c :: cur) cs
    else if isSpace c then flushWord cur (lexLine [] cs)
    else flushWord cur (.sym c :: lexLine [] cs)

/-- A literal with an optional leading `-`, or a label (R94). -/
def parseVal : List AsmTok → Option AsmVal
  | [.word w] =>
    match readNat w with
    | some n => some (.lit n)
    | none => if isName w then some (.addr w) else none
  | [.sym c, .word w] => if c = '-' then (readNat w).map fun (n : Nat) => .lit (-(n : Int)) else none
  | _ => none

/-- The value with its sign changed: the parameter of `[rb-n]` (R94). -/
def AsmVal.negate : AsmVal → AsmVal
  | .lit v => .lit (-v)
  | .addr name => .negAddr name
  | .negAddr name => .addr name

/-- What stands between the brackets of an operand (R94). -/
def parseBracketed (ts : List AsmTok) : Option AsmOperand :=
  match ts with
  | .word w :: rest =>
    if w = ['r', 'b'] then
      match rest with
      | [] => some ⟨.relative, .lit 0⟩
      | .sym c :: more =>
        if c = '+' then (parseVal more).map fun v => ⟨.relative, v⟩
        else if c = '-' then (parseVal more).map fun v => ⟨.relative, v.negate⟩
        else none
      | _ => none
    else (parseVal ts).map fun v => ⟨.position, v⟩
  | _ => (parseVal ts).map fun v => ⟨.position, v⟩

/-- An operand (R94). -/
def parseOperand (ts : List AsmTok) : Option AsmOperand :=
  match ts with
  | .sym '[' :: rest =>
    match rest.reverse with
    | .sym ']' :: inner => parseBracketed inner.reverse
    | _ => none
  | _ => (parseVal ts).map fun v => ⟨.immediate, v⟩

/-- The pieces between commas. -/
def splitTokens : List AsmTok → List (List AsmTok)
  | [] => [[]]
  | t :: ts =>
    if t = .sym ',' then [] :: splitTokens ts
    else match splitTokens ts with
      | [] => [[t]]
      | piece :: pieces => (t :: piece) :: pieces

/-- Every piece parsed. -/
def parseAll {α : Type} (parse : List AsmTok → Option α) : List (List AsmTok) → Option (List α)
  | [] => some []
  | p :: ps =>
    match parse p, parseAll parse ps with
    | some x, some xs => some (x :: xs)
    | _, _ => none

/-- A comma-separated list, empty when no token stands there, so a `.word` with no values places nothing (log 24). -/
def parseList {α : Type} (parse : List AsmTok → Option α) (ts : List AsmTok) : Option (List α) :=
  match ts with
  | [] => some []
  | t :: more => parseAll parse (splitTokens (t :: more))

/-- What stands after the label (R93, R95): nothing, `.word` with its values, or a mnemonic with its operands. `.word` is taken in
lower case only (log 22), and a value of it may be a label (log 27). -/
def parseStmt (ts : List AsmTok) : Option (Option AsmStmt) :=
  match ts with
  | [] => some none
  | .sym '.' :: .word ['w', 'o', 'r', 'd'] :: vs => (parseList parseVal vs).map fun xs => some (.words xs)
  | .word name :: xs =>
    match parseList parseOperand xs with
    | none => none
    | some os => (stmtOfMnemonic name os).map some
  | _ => none

/-- A line `[label:] [MNEMONIC operand, ...] [; comment]` (R93). The address column of the listings in 95_test_vectors.md is no part
of it (log 23). -/
def parseLine (text : List Char) : Option AsmLine :=
  match lexLine [] (text.takeWhile fun c => c ≠ ';') with
  | .word w :: .sym ':' :: ts =>
    if isName w then (parseStmt ts).map fun st => ⟨some w, st⟩ else none
  | ts => (parseStmt ts).map fun st => ⟨none, st⟩

/-- Every line parsed. -/
def parseLines : List (List Char) → Option (List AsmLine)
  | [] => some []
  | l :: ls =>
    match parseLine l, parseLines ls with
    | some x, some xs => some (x :: xs)
    | _, _ => none

/-- The program a source text assembles to (R93 to R96). -/
def assembleText (text : List Char) : Option (List Int) :=
  match parseLines (splitOnChar '\n' text) with
  | none => none
  | some ls => assemble ls

/-! ### Disassembly (R97) -/

/-- The operands of the slots a format has, in slot order. -/
def slotsOf (n : Nat) : List Slot := [Slot.one, .two, .three].take n

/-- The statement a word at an address disassembles to (R97): the instruction with each slot's operand, or `.word w` for a word
that does not decode. It reads the tape without a limit, so a parameter cell at or above `MEM_LIMIT` reads 0 (log 26). -/
def disassembleAt (m : Memory) (a : Nat) : AsmStmt :=
  match decodeWord (m.get a) with
  | .error _ => .words [.lit (m.get a)]
  | .ok i =>
    .instr i.opcode ((slotsOf (i.len - 1)).map fun k => ⟨i.modes.of k, .lit (m.get (a + k.num))⟩)

/-- The text of an operand value. -/
def AsmVal.text : AsmVal → List Char
  | .lit v => writeInt v
  | .addr name => name
  | .negAddr name => '-' :: name

/-- The text of an operand (R94); a relative operand with parameter 0 is written `[rb]` (log 25). -/
def AsmOperand.text (x : AsmOperand) : List Char :=
  match x.mode with
  | .immediate => x.val.text
  | .position => '[' :: x.val.text ++ [']']
  | .relative =>
    match x.val with
    | .lit v =>
      if v = 0 then ['[', 'r', 'b', ']']
      else if v < 0 then ['[', 'r', 'b'] ++ writeInt v ++ [']']
      else ['[', 'r', 'b', '+'] ++ writeInt v ++ [']']
    | .addr name => ['[', 'r', 'b', '+'] ++ name ++ [']']
    | .negAddr name => ['[', 'r', 'b', '-'] ++ name ++ [']']

/-- Texts separated by a comma and a space. -/
def joinCommas : List (List Char) → List Char
  | [] => []
  | [x] => x
  | x :: y :: rest => x ++ [',', ' '] ++ joinCommas (y :: rest)

/-- The text of a statement (R93, R95, R97). -/
def AsmStmt.text (st : AsmStmt) : List Char :=
  let line := fun (name : AsmName) (parts : List (List Char)) =>
    match parts with
    | [] => name
    | p :: ps => name ++ ' ' :: joinCommas (p :: ps)
  match st with
  | .instr op xs => line (mnemonicOf op) (xs.map AsmOperand.text)
  | .mov s d => line ['M', 'O', 'V'] [s.text, d.text]
  | .jmp t => line ['J', 'M', 'P'] [t.text]
  | .nop => ['N', 'O', 'P']
  | .words vs => line ['.', 'w', 'o', 'r', 'd'] (vs.map AsmVal.text)

end Sys2Proof.Machine
end

