-- ==== Sys2Proof/Machine/Session.lean ====
section
/-! DEFINITION. A host's session with any number of Machines of one hardware (spec R38, R240, R258, R305), in a realisation that
can issue a command while a run is in progress: run and resume begin a run, `Session.tick` executes its steps one by one,
and a command issued before the run has ended is refused with Busy (R240). -/

namespace Sys2Proof.Machine

/-- The Machines by the host's own references, which are places in a list (R305), and the one whose run is in progress. -/
structure Session where
  cfg : Config
  machines : List State
  active : Option Nat
  deriving DecidableEq, Repr

/-- The host's operations (50_host_interface.md); `pause` is none of them (R246). -/
inductive HostCmd where
  | construct (p : List Int)
  | reboot (i : Nat) (p : List Int)
  | run (i : Nat)
  | resume (i : Nat)
  | isRunning (i : Nat)
  | inject (i : Nat) (a v : Int)
  | read (i : Nat) (a : Int)
  | extendInput (i : Nat) (vs : List Int)
  | drainOutputInto (source target : Nat)
  | lastOutput (i : Nat)
  | dumpOutput (i : Nat)
  | readStatus (i : Nat) (index : Int)
  | clone (i : Nat)
  deriving DecidableEq, Repr

/-- What the host gets back (R259). -/
inductive HostReply where
  /-- Success, nothing to return. -/
  | ok
  /-- construct, clone: the reference of the new Machine. -/
  | machine (i : Nat)
  /-- is_running. -/
  | truth (b : Bool)
  /-- read, last_output, read_status. -/
  | value (v : Int)
  /-- dump_output. -/
  | values (vs : List Int)
  /-- run, resume: the run has begun; its exit report comes from `Session.tick`. -/
  | begun
  /-- A host error: nothing has changed (R241). -/
  | error (e : HostError)
  /-- The model's own: the reference names no Machine; nothing has changed (log 14). -/
  | noMachine
  deriving DecidableEq, Repr

/-- A reply that turns the command away. -/
def HostReply.turnsAway : HostReply → Bool
  | .error _ => true
  | .noMachine => true
  | .ok => false
  | .machine _ => false
  | .truth _ => false
  | .value _ => false
  | .values _ => false
  | .begun => false

/-- The session before any Machine is made. -/
def Session.start (c : Config) : Session := ⟨c, [], none⟩

/-- One Machine replaced. -/
def Session.put (h : Session) (i : Nat) (s : State) : Session :=
  { h with machines := h.machines.set i s }

/-- A new Machine, under the next reference. -/
def Session.make (h : Session) (s : State) : Session × HostReply :=
  ({ h with machines := h.machines ++ [s] }, .machine h.machines.length)

/-- An operation that changes one Machine, or fails and changes nothing (R241). -/
def Session.update (h : Session) (i : Nat) (op : State → Except HostError State) : Session × HostReply :=
  match h.machines[i]? with
  | none => (h, .noMachine)
  | some s =>
    match op s with
    | .error e => (h, .error e)
    | .ok t => (h.put i t, .ok)

/-- An operation that only reads one Machine. -/
def Session.query (h : Session) (i : Nat) (op : State → Except HostError HostReply) : Session × HostReply :=
  match h.machines[i]? with
  | none => (h, .noMachine)
  | some s =>
    match op s with
    | .error e => (h, .error e)
    | .ok r => (h, r)

/-- drain_output_into by reference (R250): SelfDrain when the target is the source. -/
def Session.drain (h : Session) (i j : Nat) : Session × HostReply :=
  match h.machines[i]?, h.machines[j]? with
  | some s, some t =>
    if i = j then (h, .error .selfDrain)
    else (((h.put i (drainOutputInto s t).1).put j (drainOutputInto s t).2), .ok)
  | _, _ => (h, .noMachine)

/-- The beginning of a run of a Machine (R130, R131). -/
def Session.begin (h : Session) (i : Nat) (prepare : State → State) : Session × HostReply :=
  match h.machines[i]? with
  | none => (h, .noMachine)
  | some s => ({ (h.put i (prepare s)) with active := some i }, .begun)

/-- A command issued while no run is in progress. -/
def Session.transact (h : Session) : HostCmd → Session × HostReply
  | .construct p =>
    match Sys2Proof.Machine.construct h.cfg p with
    | .error e => (h, .error e)
    | .ok s => h.make s
  | .reboot i p => h.update i (Sys2Proof.Machine.reboot p)
  | .run i => h.begin i id
  | .resume i => h.begin i State.wake
  | .isRunning i => h.query i fun s => .ok (.truth (Sys2Proof.Machine.isRunning s))
  | .inject i a v => h.update i fun s => Sys2Proof.Machine.inject s a v
  | .read i a => h.query i fun s => (hostRead s a).map .value
  | .extendInput i vs => h.update i fun s => Sys2Proof.Machine.extendInput s vs
  | .drainOutputInto i j => h.drain i j
  | .lastOutput i => h.query i fun s => (Sys2Proof.Machine.lastOutput s).map .value
  | .dumpOutput i => h.query i fun s => (Sys2Proof.Machine.dumpOutput s).map .values
  | .readStatus i k => h.query i fun s => (Sys2Proof.Machine.readStatus s k).map .value
  | .clone i =>
    match h.machines[i]? with
    | none => (h, .noMachine)
    | some s => h.make (Sys2Proof.Machine.clone s)

/-- A command (R240): refused with Busy, and nothing changed, while a run is in progress (log 14). -/
def Session.issue (h : Session) (cmd : HostCmd) : Session × HostReply :=
  match h.active with
  | some _ => (h, .error .busy)
  | none => h.transact cmd

/-- One turn of the run in progress (R129): a step while its Machine is Running; otherwise the run returns its exit report
(R243). With no run in progress no Machine executes (R240). -/
def Session.tick (h : Session) : Session × Option ExitReport :=
  match h.active with
  | none => (h, none)
  | some i =>
    match h.machines[i]? with
    | none => ({ h with active := none }, none)
    | some s =>
      if s.state = .running then
        match step s with
        | .next t => (h.put i t, none)
        | .fault _ => (h, none)
        | .refused _ => (h, none)
      else ({ h with active := none }, some (exitReport s))

end Sys2Proof.Machine
end

