-- ==== Sys2Proof/Safety.lean ====
section
/-! DEFINITION. What a legal state of CORE is, in the terms the statements use: the invariant every step and every host operation
keeps, and what it is for a run to be over. -/

namespace Sys2Proof.Machine

/-- A fault record that matches the run state (R27, R28): written exactly when the Machine is Faulted, at its `ip`, with a cause
exactly for AddressError. -/
structure FaultRecord.matches (r : FaultRecord) (st : RunState) (ip : Nat) : Prop where
  written : st = .faulted ↔ r.code ≠ .none
  cleared : st ≠ .faulted → r = FaultRecord.clear
  cause_iff : r.cause ≠ .none ↔ r.code = .addressError
  at_ip : st = .faulted → r.ip = ip

/-- A legal state of one Machine: the tape in canonical form with words in range at addresses below `MEM_LIMIT` (R20), the other
words in range (R23, R25, R26, R27), and a fault record that matches the run state (R27, R28). -/
structure State.Legal (s : State) : Prop where
  cfg_wf : s.cfg.wf
  mem_wf : s.mem.wf
  mem_fits : ∀ c ∈ s.mem.cells, fits s.cfg c.2 = true
  mem_below : ∀ c ∈ s.mem.cells, inMemory s.cfg c.1 = true
  rb_fits : fits s.cfg s.rb = true
  inq_fits : ∀ v ∈ s.inq, fits s.cfg v = true
  outlog_fits : ∀ v ∈ s.outlog, fits s.cfg v = true
  record : s.fault.matches s.state s.ip
  word_fits : fits s.cfg s.fault.word = true

/-- A session whose Machines are legal and of the session's hardware, and whose run in progress is of one of them. -/
structure Session.Legal (h : Session) : Prop where
  cfg_wf : h.cfg.wf
  machines : ∀ s ∈ h.machines, s.Legal ∧ s.cfg = h.cfg
  active : ∀ i ∈ h.active, i < h.machines.length

/-- A run that is over for good: Halted and Faulted are absorbing under every operation except reboot (R301). -/
def State.ended (s : State) : Prop := s.state = .halted ∨ s.state = .faulted

end Sys2Proof.Machine
end

