-- ==== Sys2Proof/Certificates/Slice0/Obligations.lean ====
section
/-! DEFINITION. The statements for the provers: one `Obligations.<Name>` each, listed in OBLIGATIONS.json. In every statement `s` is
any state, reached by a run or not; where that matters the invariant is a premise. The configuration is a field of the state,
so each statement holds for every WORD_BITS and MEM_LIMIT. -/

open Sys2Proof Sys2Proof.Machine

namespace Sys2Proof.Claims

/-- The state R290 describes for a fault at the instruction at `ip`: nothing committed, Faulted, the record written with the word
`w`. `m` is what the mode latch, unobservable between instructions (R24), holds: after a fault that is the model's choice (log 18). -/
def faultTaken (s : State) (m : Modes) (w : Int) (f : Fault) : State :=
  { s with modes := m, state := .faulted, fault := ⟨f.code, f.cause, s.ip, w, f.info⟩ }

/-- A fault of a decoded instruction: the recorded word is the instruction word, the cell at `ip`. -/
def instrFault (s : State) (m : Modes) (f : Fault) : Host.Outcome State Fault Refusal :=
  .next (faultTaken s m (s.mem.get s.ip) f)

/-- The instruction word of an opcode with its mode digits, as each instruction's rule writes it. -/
def instrWord (m1 m2 m3 : Mode) (op : Nat) : Int :=
  ((10000 * m3.digit + 1000 * m2.digit + 100 * m1.digit + op : Nat) : Int)

/-- The session and the reply when an operation on Machine `i` has answered: a host error changes nothing (R241). -/
def changed (h : Session) (i : Nat) : Except HostError State → Session × HostReply
  | .error e => (h, .error e)
  | .ok t => ({ h with machines := h.machines.set i t }, .ok)

/-- The same for an operation that only reads. -/
def answered (h : Session) : Except HostError HostReply → Session × HostReply
  | .error e => (h, .error e)
  | .ok r => (h, r)

/-- The same for construct: the new Machine takes the next reference. -/
def created (h : Session) : Except HostError State → Session × HostReply
  | .error e => (h, .error e)
  | .ok s => ({ h with machines := h.machines ++ [s] }, .machine h.machines.length)

/-- The Machines a command may change. -/
def touched : HostCmd → List Nat
  | .construct _ => []
  | .reboot i _ => [i]
  | .run i => [i]
  | .resume i => [i]
  | .isRunning _ => []
  | .inject i _ _ => [i]
  | .read _ _ => []
  | .extendInput i _ => [i]
  | .drainOutputInto i j => [i, j]
  | .lastOutput _ => []
  | .dumpOutput _ => []
  | .readStatus _ _ => []
  | .clone _ => []

/-- A state with another word width. -/
def withWidth (s : State) (w : Option Nat) : State := { s with cfg := { s.cfg with wordBits := w } }

/-- What a word-width-`w` signed integer of one more bit is: the range of `fault_info` (R27). -/
def fitsInfo (c : Config) (v : Int) : Prop := ∀ w ∈ c.wordBits, -((2 ^ w : Nat) : Int) ≤ v ∧ v ≤ ((2 ^ w : Nat) : Int) - 1

end Sys2Proof.Claims

open Sys2Proof.Claims

/-! ### Encoding -/

/-- The decoder and the encoder are inverse on every instruction with every mode digit (R81, R89): no digit is dropped, and no
word but its own decodes to an instruction. -/
def Obligations.DecodeEncodeInverse : Prop :=
  (∀ i : Instr, decodeWord (encode i) = .ok i) ∧ ∀ (w : Int) (i : Instr), decodeWord w = .ok i → encode i = w

/-- A word of each opcode written out from R81 and R83, with its modes. -/
def Obligations.SampleWordsDecode : Prop :=
  decodeWord 1 = .ok (.add .position .position .position) ∧
  decodeWord 21202 = .ok (.mul .relative .immediate .relative) ∧
  decodeWord 203 = .ok (.inp .relative .position .position) ∧
  decodeWord 11104 = .ok (.out .immediate .immediate .immediate) ∧
  decodeWord 2105 = .ok (.jt .immediate .relative .position) ∧
  decodeWord 1006 = .ok (.jf .position .immediate .position) ∧
  decodeWord 1107 = .ok (.lt .immediate .immediate .position) ∧
  decodeWord 12208 = .ok (.eq .relative .relative .immediate) ∧
  decodeWord 109 = .ok (.arb .immediate .position .position) ∧
  decodeWord 22299 = .ok (.halt .relative .relative .relative)

/-- R86: which words are illegal opcodes, and that the step takes InvalidOpcode on them. -/
def Obligations.IllegalOpcodeFaults : Prop :=
  (∀ w : Int, decodeWord w = .error .invalidOpcode ↔
    w < 0 ∨ (0 ≤ w ∧ w % 100 ∉ ([1, 2, 3, 4, 5, 6, 7, 8, 9, 99] : List Int))) ∧
  ∀ s : State, s.state = .running → inMemory s.cfg s.ip = true →
    decodeWord (s.mem.get s.ip) = .error .invalidOpcode →
    step s = .next (faultTaken s s.modes (s.mem.get s.ip) .invalidOpcode)

/-- R87: which words of a legal opcode are illegal mode encodings, and that the step takes InvalidMode on them. That the mode latch is
then as before is the model's choice (log 18). -/
def Obligations.IllegalModeFaults : Prop :=
  (∀ w : Int, decodeWord w = .error .invalidMode ↔
    0 ≤ w ∧ w % 100 ∈ ([1, 2, 3, 4, 5, 6, 7, 8, 9, 99] : List Int) ∧
      (3 ≤ w / 100 % 10 ∨ 3 ≤ w / 1000 % 10 ∨ 3 ≤ w / 10000 % 10 ∨ 100000 ≤ w)) ∧
  ∀ s : State, s.state = .running → inMemory s.cfg s.ip = true →
    decodeWord (s.mem.get s.ip) = .error .invalidMode →
    step s = .next (faultTaken s s.modes (s.mem.get s.ip) .invalidMode)

/-- R115: two words of one opcode that agree on the slots the format has do the same, up to the latch, which is not observable. That the
latch keeps the decoded modes after a fault and a pause is the model's choice (log 18). -/
def Obligations.UnusedModeDigitsIgnored : Prop :=
  ∀ (i j : Instr) (s t : State), i.opcode = j.opcode →
    (∀ k : Slot, k.num < i.len → i.modes.of k = j.modes.of k) →
    exec i s = .next t → exec j s = .next { t with modes := j.modes }

/-! ### The step -/

/-- When the word at `ip` of a Running Machine decodes, the step is that instruction (R110, R111, R114). Nothing stands around
exec: each instruction advances the pointer itself. -/
def Obligations.StepRunsDecodedInstruction : Prop :=
  ∀ (s : State) (i : Instr), s.state = .running → inMemory s.cfg s.ip = true → decodeWord (s.mem.get s.ip) = .ok i →
    step s = exec i s

/-- Every step and every instruction ends in a next state, in every state (R110, R114). That a Machine which is not Running steps
to itself is the model's reading (log 6). -/
def Obligations.EveryStepAnswersNext : Prop :=
  (∀ s : State, ∃ t, step s = .next t) ∧ ∀ (i : Instr) (s : State), ∃ t, exec i s = .next t

/-- R130: run() is the run loop and reports the exit state and, after a fault, the record; on a Machine that is not Running it
executes nothing, whatever the input queue holds. -/
def Obligations.RunOnStoppedMachineDoesNothing : Prop :=
  (∀ (fuel : Nat) (s : State), run fuel s = (runLoop fuel s).map fun t =>
    (t, ⟨t.state, if t.state = .faulted then some t.fault else none⟩)) ∧
  ∀ (fuel : Nat) (s : State), s.state ≠ .running →
    run fuel s = some (s, ⟨s.state, if s.state = .faulted then some s.fault else none⟩)

/-- A fetch at or above MEM_LIMIT faults with CapacityExceeded and records the word 0; a fetch of a cell that reads 0, as one never
written does, faults with InvalidOpcode (R111). -/
def Obligations.FetchOutsideProgramFaults : Prop :=
  (∀ s : State, s.state = .running → inMemory s.cfg s.ip = false →
    step s = .next (faultTaken s s.modes 0 (.capacityExceeded s.ip))) ∧
  ∀ s : State, s.state = .running → inMemory s.cfg s.ip = true → s.mem.get s.ip = 0 →
    step s = .next (faultTaken s s.modes 0 .invalidOpcode)

/-! ### Memory and the resolver -/

/-- R52: what MemRead answers at every integer. -/
def Obligations.MemReadAnswers : Prop :=
  ∀ (s : State) (a : Int),
    (a < 0 → memRead s a = .error (.negativeAddress a)) ∧
    (0 ≤ a → inMemory s.cfg a.toNat = false → memRead s a = .error (.capacityExceeded a)) ∧
    (0 ≤ a → inMemory s.cfg a.toNat = true → memRead s a = .ok (s.mem.get a.toNat))

/-- R53: what MemWrite answers at every integer; on success the cell holds the value, every other cell keeps its value, and
nothing else of the state changes. -/
def Obligations.MemWriteAnswers : Prop :=
  ∀ (s : State) (a v : Int), s.mem.wf →
    (a < 0 → memWrite s a v = .error (.negativeAddress a)) ∧
    (0 ≤ a → inMemory s.cfg a.toNat = false → memWrite s a v = .error (.capacityExceeded a)) ∧
    (0 ≤ a → inMemory s.cfg a.toNat = true → ∃ m : Memory, memWrite s a v = .ok { s with mem := m } ∧ m.wf ∧
      ∀ b : Nat, m.get b = if b = a.toNat then v else s.mem.get b)

/-- The canonical form leaves one tape for each function from addresses to words (R20). -/
def Obligations.CanonicalMemoryIsUnique : Prop :=
  ∀ m n : Memory, m.wf → n.wf → (∀ a : Nat, m.get a = n.get a) → m = n

/-- What the resolver answers (R117 to R121), mode by mode; the relative sum is exact and never overflows. -/
def Obligations.ResolverAnswers : Prop :=
  ∀ (s : State) (k : Slot) (acc : Access),
    (s.modes.of k = .immediate → acc = .write → resolveAddr s k acc = .error (.immediateWrite k)) ∧
    (s.modes.of k = .immediate → acc = .read → inMemory s.cfg (s.ip + k.num) = true →
      resolveAddr s k acc = .ok (s.ip + k.num)) ∧
    ((s.modes.of k = .immediate → acc = .read) → inMemory s.cfg (s.ip + k.num) = false →
      resolveAddr s k acc = .error (.capacityExceeded (s.ip + k.num : Nat))) ∧
    ∀ a : Int,
      (s.modes.of k = .position ∧ a = s.mem.get (s.ip + k.num) ∨
        s.modes.of k = .relative ∧ a = s.rb + s.mem.get (s.ip + k.num)) →
      inMemory s.cfg (s.ip + k.num) = true →
      (a < 0 → resolveAddr s k acc = .error (.negativeAddress a)) ∧
      (0 ≤ a → inMemory s.cfg a.toNat = false → resolveAddr s k acc = .error (.capacityExceeded a)) ∧
      (0 ≤ a → inMemory s.cfg a.toNat = true → resolveAddr s k acc = .ok a.toNat)

/-- R122, R119: a read operand is the word at its resolved address, in immediate mode the parameter itself, and fails as its
resolution does. -/
def Obligations.OperandIsWordAtResolvedAddress : Prop :=
  ∀ (s : State) (k : Slot),
    (∀ a : Nat, resolveAddr s k .read = .ok a → readOperand s k = .ok (s.mem.get a)) ∧
    (∀ f : Fault, resolveAddr s k .read = .error f → readOperand s k = .error f) ∧
    (s.modes.of k = .immediate → inMemory s.cfg (s.ip + k.num) = true →
      readOperand s k = .ok (s.mem.get (s.ip + k.num)))

/-- R124: Checked passes the words and raises Overflow for every other integer; at INF it passes everything. -/
def Obligations.CheckedAnswers : Prop :=
  ∀ (c : Config) (v : Int),
    (c.wordBits = none → checked c v = .ok v) ∧
    ∀ w : Nat, c.wordBits = some w →
      (wordMin w ≤ v → v ≤ wordMax w → checked c v = .ok v) ∧
      (v < wordMin w ∨ wordMax w < v → checked c v = .error .overflow)

/-! ### The instructions: every outcome of each, the faults in the order of R125 -/

/-- R140: ADD stores the exact sum and advances by 4, faults in slot order, and overflows when the sum is no word. What the mode
latch holds after a fault is the model's choice (log 18). -/
def Obligations.AddOutcomes : Prop :=
  ∀ (s : State) (m1 m2 m3 : Mode),
    ((Instr.add m1 m2 m3).format = .RRW ∧ encode (.add m1 m2 m3) = instrWord m1 m2 m3 1) ∧
    (∀ (f : Fault),
      readOperand (s.latch ⟨m1, m2, m3⟩) .one = .error f → exec (.add m1 m2 m3) s = instrFault s ⟨m1, m2, m3⟩ f) ∧
    (∀ (a : Int) (f : Fault), readOperand (s.latch ⟨m1, m2, m3⟩) .one = .ok a →
      readOperand (s.latch ⟨m1, m2, m3⟩) .two = .error f → exec (.add m1 m2 m3) s = instrFault s ⟨m1, m2, m3⟩ f) ∧
    (∀ (a : Int) (b : Int) (f : Fault), readOperand (s.latch ⟨m1, m2, m3⟩) .one = .ok a → readOperand (s.latch ⟨m1, m2, m3⟩) .two = .ok b →
      resolveAddr (s.latch ⟨m1, m2, m3⟩) .three .write = .error f → exec (.add m1 m2 m3) s = instrFault s ⟨m1, m2, m3⟩ f) ∧
    (∀ (a b : Int) (d : Nat), readOperand (s.latch ⟨m1, m2, m3⟩) .one = .ok a → readOperand (s.latch ⟨m1, m2, m3⟩) .two = .ok b →
      resolveAddr (s.latch ⟨m1, m2, m3⟩) .three .write = .ok d → fits s.cfg (a + b) = false →
      exec (.add m1 m2 m3) s = instrFault s ⟨m1, m2, m3⟩ .overflow) ∧
    (∀ (a b : Int) (d : Nat), readOperand (s.latch ⟨m1, m2, m3⟩) .one = .ok a → readOperand (s.latch ⟨m1, m2, m3⟩) .two = .ok b →
      resolveAddr (s.latch ⟨m1, m2, m3⟩) .three .write = .ok d → fits s.cfg (a + b) = true →
      exec (.add m1 m2 m3) s = .next { s with modes := ⟨m1, m2, m3⟩, mem := s.mem.set d (a + b), ip := s.ip + 4 })

/-- R145: MUL stores the exact product and advances by 4, faults in slot order, and overflows when the product is no word. What
the mode latch holds after a fault is the model's choice (log 18). -/
def Obligations.MulOutcomes : Prop :=
  ∀ (s : State) (m1 m2 m3 : Mode),
    ((Instr.mul m1 m2 m3).format = .RRW ∧ encode (.mul m1 m2 m3) = instrWord m1 m2 m3 2) ∧
    (∀ (f : Fault),
      readOperand (s.latch ⟨m1, m2, m3⟩) .one = .error f → exec (.mul m1 m2 m3) s = instrFault s ⟨m1, m2, m3⟩ f) ∧
    (∀ (a : Int) (f : Fault), readOperand (s.latch ⟨m1, m2, m3⟩) .one = .ok a →
      readOperand (s.latch ⟨m1, m2, m3⟩) .two = .error f → exec (.mul m1 m2 m3) s = instrFault s ⟨m1, m2, m3⟩ f) ∧
    (∀ (a : Int) (b : Int) (f : Fault), readOperand (s.latch ⟨m1, m2, m3⟩) .one = .ok a → readOperand (s.latch ⟨m1, m2, m3⟩) .two = .ok b →
      resolveAddr (s.latch ⟨m1, m2, m3⟩) .three .write = .error f → exec (.mul m1 m2 m3) s = instrFault s ⟨m1, m2, m3⟩ f) ∧
    (∀ (a b : Int) (d : Nat), readOperand (s.latch ⟨m1, m2, m3⟩) .one = .ok a → readOperand (s.latch ⟨m1, m2, m3⟩) .two = .ok b →
      resolveAddr (s.latch ⟨m1, m2, m3⟩) .three .write = .ok d → fits s.cfg (a * b) = false →
      exec (.mul m1 m2 m3) s = instrFault s ⟨m1, m2, m3⟩ .overflow) ∧
    (∀ (a b : Int) (d : Nat), readOperand (s.latch ⟨m1, m2, m3⟩) .one = .ok a → readOperand (s.latch ⟨m1, m2, m3⟩) .two = .ok b →
      resolveAddr (s.latch ⟨m1, m2, m3⟩) .three .write = .ok d → fits s.cfg (a * b) = true →
      exec (.mul m1 m2 m3) s = .next { s with modes := ⟨m1, m2, m3⟩, mem := s.mem.set d (a * b), ip := s.ip + 4 })

/-- R160: IN resolves its destination first, and faults there even with an empty queue; then it moves the front word of the queue, or
pauses and leaves everything else as it was. What the mode latch holds after a fault and in a pause (R34 discards it) is the
model's choice (log 18). -/
def Obligations.InOutcomes : Prop :=
  ∀ (s : State) (m1 m2 m3 : Mode),
    ((Instr.inp m1 m2 m3).format = .W ∧ encode (.inp m1 m2 m3) = instrWord m1 m2 m3 3) ∧
    (∀ f : Fault, resolveAddr (s.latch ⟨m1, m2, m3⟩) .one .write = .error f → exec (.inp m1 m2 m3) s = instrFault s ⟨m1, m2, m3⟩ f) ∧
    (∀ d : Nat, resolveAddr (s.latch ⟨m1, m2, m3⟩) .one .write = .ok d → s.inq = [] →
      exec (.inp m1 m2 m3) s = .next { s with modes := ⟨m1, m2, m3⟩, state := .paused }) ∧
    (∀ (d : Nat) (v : Int) (rest : List Int), resolveAddr (s.latch ⟨m1, m2, m3⟩) .one .write = .ok d → s.inq = v :: rest →
      exec (.inp m1 m2 m3) s =
        .next { s with modes := ⟨m1, m2, m3⟩, inq := rest, mem := s.mem.set d v, ip := s.ip + 2 })

/-- R165: OUT appends its operand to the output log and advances by 2. What the mode latch holds after a fault is the model's
choice (log 18). -/
def Obligations.OutOutcomes : Prop :=
  ∀ (s : State) (m1 m2 m3 : Mode),
    ((Instr.out m1 m2 m3).format = .R ∧ encode (.out m1 m2 m3) = instrWord m1 m2 m3 4) ∧
    (∀ f : Fault, readOperand (s.latch ⟨m1, m2, m3⟩) .one = .error f → exec (.out m1 m2 m3) s = instrFault s ⟨m1, m2, m3⟩ f) ∧
    (∀ a : Int, readOperand (s.latch ⟨m1, m2, m3⟩) .one = .ok a →
      exec (.out m1 m2 m3) s = .next { s with modes := ⟨m1, m2, m3⟩, outlog := s.outlog ++ [a], ip := s.ip + 2 })

/-- R180: JT jumps to its target when its operand is not 0, faults when a taken target is negative, and otherwise advances by 3;
both operands are read either way. What the mode latch holds after a fault is the model's choice (log 18). -/
def Obligations.JumpIfTrueOutcomes : Prop :=
  ∀ (s : State) (m1 m2 m3 : Mode),
    ((Instr.jt m1 m2 m3).format = .RR ∧ encode (.jt m1 m2 m3) = instrWord m1 m2 m3 5) ∧
    (∀ (f : Fault),
      readOperand (s.latch ⟨m1, m2, m3⟩) .one = .error f → exec (.jt m1 m2 m3) s = instrFault s ⟨m1, m2, m3⟩ f) ∧
    (∀ (a : Int) (f : Fault), readOperand (s.latch ⟨m1, m2, m3⟩) .one = .ok a →
      readOperand (s.latch ⟨m1, m2, m3⟩) .two = .error f → exec (.jt m1 m2 m3) s = instrFault s ⟨m1, m2, m3⟩ f) ∧
    (∀ a v : Int, readOperand (s.latch ⟨m1, m2, m3⟩) .one = .ok a → readOperand (s.latch ⟨m1, m2, m3⟩) .two = .ok v →
      a ≠ 0 → v < 0 → exec (.jt m1 m2 m3) s = instrFault s ⟨m1, m2, m3⟩ (.negativeTarget v)) ∧
    (∀ a v : Int, readOperand (s.latch ⟨m1, m2, m3⟩) .one = .ok a → readOperand (s.latch ⟨m1, m2, m3⟩) .two = .ok v →
      a ≠ 0 → 0 ≤ v → exec (.jt m1 m2 m3) s = .next { s with modes := ⟨m1, m2, m3⟩, ip := v.toNat }) ∧
    (∀ a v : Int, readOperand (s.latch ⟨m1, m2, m3⟩) .one = .ok a → readOperand (s.latch ⟨m1, m2, m3⟩) .two = .ok v →
      a = 0 → exec (.jt m1 m2 m3) s = .next { s with modes := ⟨m1, m2, m3⟩, ip := s.ip + 3 })

/-- R185: JF jumps to its target when its operand is 0, faults when a taken target is negative, and otherwise advances by 3; both
operands are read either way. What the mode latch holds after a fault is the model's choice (log 18). -/
def Obligations.JumpIfFalseOutcomes : Prop :=
  ∀ (s : State) (m1 m2 m3 : Mode),
    ((Instr.jf m1 m2 m3).format = .RR ∧ encode (.jf m1 m2 m3) = instrWord m1 m2 m3 6) ∧
    (∀ (f : Fault),
      readOperand (s.latch ⟨m1, m2, m3⟩) .one = .error f → exec (.jf m1 m2 m3) s = instrFault s ⟨m1, m2, m3⟩ f) ∧
    (∀ (a : Int) (f : Fault), readOperand (s.latch ⟨m1, m2, m3⟩) .one = .ok a →
      readOperand (s.latch ⟨m1, m2, m3⟩) .two = .error f → exec (.jf m1 m2 m3) s = instrFault s ⟨m1, m2, m3⟩ f) ∧
    (∀ a v : Int, readOperand (s.latch ⟨m1, m2, m3⟩) .one = .ok a → readOperand (s.latch ⟨m1, m2, m3⟩) .two = .ok v →
      a = 0 → v < 0 → exec (.jf m1 m2 m3) s = instrFault s ⟨m1, m2, m3⟩ (.negativeTarget v)) ∧
    (∀ a v : Int, readOperand (s.latch ⟨m1, m2, m3⟩) .one = .ok a → readOperand (s.latch ⟨m1, m2, m3⟩) .two = .ok v →
      a = 0 → 0 ≤ v → exec (.jf m1 m2 m3) s = .next { s with modes := ⟨m1, m2, m3⟩, ip := v.toNat }) ∧
    (∀ a v : Int, readOperand (s.latch ⟨m1, m2, m3⟩) .one = .ok a → readOperand (s.latch ⟨m1, m2, m3⟩) .two = .ok v →
      a ≠ 0 → exec (.jf m1 m2 m3) s = .next { s with modes := ⟨m1, m2, m3⟩, ip := s.ip + 3 })

/-- R200: LT stores 1 when the first operand is less as a signed integer, else 0, advances by 4, and never overflows. What the
mode latch holds after a fault is the model's choice (log 18). -/
def Obligations.LessThanOutcomes : Prop :=
  ∀ (s : State) (m1 m2 m3 : Mode),
    ((Instr.lt m1 m2 m3).format = .RRW ∧ encode (.lt m1 m2 m3) = instrWord m1 m2 m3 7) ∧
    (∀ (f : Fault),
      readOperand (s.latch ⟨m1, m2, m3⟩) .one = .error f → exec (.lt m1 m2 m3) s = instrFault s ⟨m1, m2, m3⟩ f) ∧
    (∀ (a : Int) (f : Fault), readOperand (s.latch ⟨m1, m2, m3⟩) .one = .ok a →
      readOperand (s.latch ⟨m1, m2, m3⟩) .two = .error f → exec (.lt m1 m2 m3) s = instrFault s ⟨m1, m2, m3⟩ f) ∧
    (∀ (a : Int) (b : Int) (f : Fault), readOperand (s.latch ⟨m1, m2, m3⟩) .one = .ok a → readOperand (s.latch ⟨m1, m2, m3⟩) .two = .ok b →
      resolveAddr (s.latch ⟨m1, m2, m3⟩) .three .write = .error f → exec (.lt m1 m2 m3) s = instrFault s ⟨m1, m2, m3⟩ f) ∧
    (∀ (a b : Int) (d : Nat), readOperand (s.latch ⟨m1, m2, m3⟩) .one = .ok a → readOperand (s.latch ⟨m1, m2, m3⟩) .two = .ok b →
      resolveAddr (s.latch ⟨m1, m2, m3⟩) .three .write = .ok d →
      exec (.lt m1 m2 m3) s = .next { s with modes := ⟨m1, m2, m3⟩, mem := s.mem.set d (if a < b then 1 else 0), ip := s.ip + 4 })

/-- R205: EQ stores 1 when the operands are equal, else 0, advances by 4, and never overflows. What the mode latch holds after a
fault is the model's choice (log 18). -/
def Obligations.EqualsOutcomes : Prop :=
  ∀ (s : State) (m1 m2 m3 : Mode),
    ((Instr.eq m1 m2 m3).format = .RRW ∧ encode (.eq m1 m2 m3) = instrWord m1 m2 m3 8) ∧
    (∀ (f : Fault),
      readOperand (s.latch ⟨m1, m2, m3⟩) .one = .error f → exec (.eq m1 m2 m3) s = instrFault s ⟨m1, m2, m3⟩ f) ∧
    (∀ (a : Int) (f : Fault), readOperand (s.latch ⟨m1, m2, m3⟩) .one = .ok a →
      readOperand (s.latch ⟨m1, m2, m3⟩) .two = .error f → exec (.eq m1 m2 m3) s = instrFault s ⟨m1, m2, m3⟩ f) ∧
    (∀ (a : Int) (b : Int) (f : Fault), readOperand (s.latch ⟨m1, m2, m3⟩) .one = .ok a → readOperand (s.latch ⟨m1, m2, m3⟩) .two = .ok b →
      resolveAddr (s.latch ⟨m1, m2, m3⟩) .three .write = .error f → exec (.eq m1 m2 m3) s = instrFault s ⟨m1, m2, m3⟩ f) ∧
    (∀ (a b : Int) (d : Nat), readOperand (s.latch ⟨m1, m2, m3⟩) .one = .ok a → readOperand (s.latch ⟨m1, m2, m3⟩) .two = .ok b →
      resolveAddr (s.latch ⟨m1, m2, m3⟩) .three .write = .ok d →
      exec (.eq m1 m2 m3) s = .next { s with modes := ⟨m1, m2, m3⟩, mem := s.mem.set d (if a = b then 1 else 0), ip := s.ip + 4 })

/-- R220: ARB adds its operand, read with the old base, to `rb` and advances by 2; it overflows when the sum is no word. What the
mode latch holds after a fault is the model's choice (log 18). -/
def Obligations.AdjustBaseOutcomes : Prop :=
  ∀ (s : State) (m1 m2 m3 : Mode),
    ((Instr.arb m1 m2 m3).format = .R ∧ encode (.arb m1 m2 m3) = instrWord m1 m2 m3 9) ∧
    (∀ f : Fault, readOperand (s.latch ⟨m1, m2, m3⟩) .one = .error f → exec (.arb m1 m2 m3) s = instrFault s ⟨m1, m2, m3⟩ f) ∧
    (∀ a : Int, readOperand (s.latch ⟨m1, m2, m3⟩) .one = .ok a → fits s.cfg (s.rb + a) = false →
      exec (.arb m1 m2 m3) s = instrFault s ⟨m1, m2, m3⟩ .overflow) ∧
    (∀ a : Int, readOperand (s.latch ⟨m1, m2, m3⟩) .one = .ok a → fits s.cfg (s.rb + a) = true →
      exec (.arb m1 m2 m3) s = .next { s with modes := ⟨m1, m2, m3⟩, rb := s.rb + a, ip := s.ip + 2 })

/-- R225: HALT sets the run state to Halted and leaves everything else, `ip` included. -/
def Obligations.HaltOutcome : Prop :=
  ∀ (s : State) (m1 m2 m3 : Mode),
    ((Instr.halt m1 m2 m3).format = .N ∧ encode (.halt m1 m2 m3) = instrWord m1 m2 m3 99) ∧
    exec (.halt m1 m2 m3) s = .next { s with modes := ⟨m1, m2, m3⟩, state := .halted }

/-! ### Faults -/

/-- R280: the codes, causes and info of the faults, as the bits the status port shows them in. -/
def Obligations.FaultCodesAreTheSpecs : Prop :=
  ∀ (a : Int) (k : Slot),
    (Fault.invalidOpcode.code.bits = 1 ∧ Fault.invalidOpcode.cause.bits = 0 ∧ Fault.invalidOpcode.info = 0) ∧
    ((Fault.negativeAddress a).code.bits = 2 ∧ (Fault.negativeAddress a).cause.bits = 1 ∧ (Fault.negativeAddress a).info = a) ∧
    ((Fault.immediateWrite k).code.bits = 2 ∧ (Fault.immediateWrite k).cause.bits = 2 ∧
      (Fault.immediateWrite k).info = k.num) ∧
    ((Fault.negativeTarget a).code.bits = 2 ∧ (Fault.negativeTarget a).cause.bits = 3 ∧ (Fault.negativeTarget a).info = a) ∧
    (Fault.invalidMode.code.bits = 3 ∧ Fault.invalidMode.cause.bits = 0 ∧ Fault.invalidMode.info = 0) ∧
    (Fault.overflow.code.bits = 4 ∧ Fault.overflow.cause.bits = 0 ∧ Fault.overflow.info = 0) ∧
    ((Fault.capacityExceeded a).code.bits = 5 ∧ (Fault.capacityExceeded a).cause.bits = 0 ∧
      (Fault.capacityExceeded a).info = a)

/-- R290: a step that ends Faulted has committed nothing; the record names the faulting instruction, with the word at `ip`, or 0
when the fetch itself faulted. -/
def Obligations.FaultCommitsNothing : Prop :=
  ∀ s t : State, s.state = .running → step s = .next t → t.state = .faulted →
    t.cfg = s.cfg ∧ t.mem = s.mem ∧ t.ip = s.ip ∧ t.rb = s.rb ∧ t.inq = s.inq ∧ t.outlog = s.outlog ∧
    t.fault.code ≠ .none ∧ t.fault.ip = s.ip ∧
    t.fault.word = if inMemory s.cfg s.ip = true then s.mem.get s.ip else 0

/-- `fault_info` of an AddressError fits W+1 bits (R27), from every legal state. -/
def Obligations.FaultInfoFitsOneMoreBit : Prop :=
  ∀ s t : State, s.Legal → s.state = .running → step s = .next t → t.fault.code = .addressError →
    fitsInfo s.cfg t.fault.info

/-! ### Frames -/

/-- What ADD, MUL, LT and EQ leave unchanged: every register and queue but `ip`, the run state and record unless they fault, and
every cell but the one slot 3 resolves to. -/
def Obligations.StoringInstructionsFrame : Prop :=
  ∀ (i : Instr) (s t : State), i.format = .RRW → s.mem.wf → exec i s = .next t →
    t.cfg = s.cfg ∧ t.rb = s.rb ∧ t.inq = s.inq ∧ t.outlog = s.outlog ∧
    (t.state = s.state ∧ t.fault = s.fault ∨ t.state = .faulted ∧ t.mem = s.mem ∧ t.ip = s.ip) ∧
    (∀ d : Nat, resolveAddr (s.latch i.modes) .three .write = .ok d → ∀ a : Nat, a ≠ d → t.mem.get a = s.mem.get a) ∧
    ∀ f : Fault, resolveAddr (s.latch i.modes) .three .write = .error f → t.mem = s.mem

/-- What IN leaves unchanged: `rb`, the output log, every cell but the one slot 1 resolves to; the queue and the tape when it does
not advance; and the run state unless it pauses on an empty queue or faults. -/
def Obligations.InputInstructionFrame : Prop :=
  ∀ (m1 m2 m3 : Mode) (s t : State), s.mem.wf → exec (.inp m1 m2 m3) s = .next t →
    t.cfg = s.cfg ∧ t.rb = s.rb ∧ t.outlog = s.outlog ∧
    (t.fault = s.fault ∨ t.state = .faulted) ∧
    (t.state = s.state ∨ t.state = .paused ∧ s.inq = [] ∨ t.state = .faulted) ∧
    (t.ip = s.ip → t.mem = s.mem ∧ t.inq = s.inq) ∧
    (∀ d : Nat, resolveAddr (s.latch ⟨m1, m2, m3⟩) .one .write = .ok d → ∀ a : Nat, a ≠ d → t.mem.get a = s.mem.get a) ∧
    ∀ f : Fault, resolveAddr (s.latch ⟨m1, m2, m3⟩) .one .write = .error f → t.mem = s.mem

/-- What OUT, JT, JF, ARB and HALT leave unchanged: all of memory and the input queue; `rb` but for ARB, the output log but for OUT,
and the run state but for HALT and a fault. -/
def Obligations.NonStoringInstructionsFrame : Prop :=
  ∀ (i : Instr) (s t : State), i.format ≠ .RRW → i.format ≠ .W → exec i s = .next t →
    t.cfg = s.cfg ∧ (∀ a : Nat, t.mem.get a = s.mem.get a) ∧ t.mem = s.mem ∧ t.inq = s.inq ∧
    (i.opcode ≠ 9 → t.rb = s.rb) ∧ (i.opcode ≠ 4 → t.outlog = s.outlog) ∧
    (t.fault = s.fault ∨ t.state = .faulted) ∧
    (i.opcode ≠ 99 → t.state = s.state ∨ t.state = .faulted) ∧ (t.state = .faulted → t.ip = s.ip ∨ s.state = .faulted)

/-! ### Rules about the whole machine -/

/-- R23: only ARB changes `rb`. -/
def Obligations.OnlyAdjustBaseWritesBase : Prop :=
  ∀ s t : State, step s = .next t → t.rb ≠ s.rb →
    ∃ m1 m2 m3 : Mode, decodeWord (s.mem.get s.ip) = .ok (.arb m1 m2 m3)

/-- Only ADD, MUL, IN, LT and EQ write memory, one cell each: the one their write slot resolves to (R37, R116, R123). -/
def Obligations.OnlyStoringInstructionsWriteMemory : Prop :=
  ∀ s t : State, s.mem.wf → step s = .next t → t.mem ≠ s.mem →
    ∃ (i : Instr) (d : Nat), decodeWord (s.mem.get s.ip) = .ok i ∧
      (i.opcode ∈ [1, 2, 7, 8] ∧ resolveAddr (s.latch i.modes) .three .write = .ok d ∨
        i.opcode = 3 ∧ resolveAddr (s.latch i.modes) .one .write = .ok d) ∧
      inMemory s.cfg d = true ∧ ∀ a : Nat, a ≠ d → t.mem.get a = s.mem.get a

/-- R25, R26: over any run the input queue loses words at its front only and gains none, and the output log gains words at its back
only and loses none. -/
def Obligations.QueuesAreFifoOverARun : Prop :=
  ∀ (fuel : Nat) (s t : State), runLoop fuel s = some t →
    (∃ consumed : List Int, s.inq = consumed ++ t.inq) ∧ ∃ produced : List Int, t.outlog = s.outlog ++ produced

/-- Only IN takes from the input queue, and it takes the front word and stores it; only OUT appends to the output log, and it appends
its operand (R37). -/
def Obligations.OnlyInAndOutUseQueues : Prop :=
  ∀ s t : State, step s = .next t →
    (t.inq ≠ s.inq → ∃ (m1 m2 m3 : Mode) (d : Nat) (v : Int), decodeWord (s.mem.get s.ip) = .ok (.inp m1 m2 m3) ∧
      resolveAddr (s.latch ⟨m1, m2, m3⟩) .one .write = .ok d ∧ s.inq = v :: t.inq ∧ t.mem = s.mem.set d v) ∧
    (t.outlog ≠ s.outlog → ∃ (m1 m2 m3 : Mode) (v : Int), decodeWord (s.mem.get s.ip) = .ok (.out m1 m2 m3) ∧
      readOperand (s.latch ⟨m1, m2, m3⟩) .one = .ok v ∧ t.outlog = s.outlog ++ [v])

/-- The run states a step of a Running Machine can end in, and exactly when (R300): Halted for HALT, Paused for an IN whose slot passed
and whose queue is empty, Faulted with a record, otherwise Running. -/
def Obligations.RunStateTransitions : Prop :=
  ∀ s t : State, s.state = .running → s.fault = FaultRecord.clear → step s = .next t →
    (t.state = .halted ↔ inMemory s.cfg s.ip = true ∧
      ∃ m1 m2 m3 : Mode, decodeWord (s.mem.get s.ip) = .ok (.halt m1 m2 m3)) ∧
    (t.state = .paused ↔ inMemory s.cfg s.ip = true ∧ s.inq = [] ∧ ∃ (m1 m2 m3 : Mode) (d : Nat),
      decodeWord (s.mem.get s.ip) = .ok (.inp m1 m2 m3) ∧ resolveAddr (s.latch ⟨m1, m2, m3⟩) .one .write = .ok d) ∧
    (t.state = .faulted ↔ t.fault.code ≠ .none)

/-- R128: a step leaves `ip` where it was only for HALT, an IN that pauses, a taken jump to itself, or a fault. -/
def Obligations.StepMakesProgress : Prop :=
  ∀ s t : State, s.state = .running → step s = .next t → t.ip = s.ip →
    t.state = .faulted ∨ t.state = .halted ∨ (t.state = .paused ∧ s.inq = []) ∨
    ∃ (m1 m2 m3 : Mode) (a : Int),
      readOperand (s.latch ⟨m1, m2, m3⟩) .one = .ok a ∧ readOperand (s.latch ⟨m1, m2, m3⟩) .two = .ok (s.ip : Int) ∧
      (decodeWord (s.mem.get s.ip) = .ok (.jt m1 m2 m3) ∧ a ≠ 0 ∨ decodeWord (s.mem.get s.ip) = .ok (.jf m1 m2 m3) ∧ a = 0)

/-- An instruction that completes without a jump, a pause or a halt advances by its own length, from `ip0` (R126). -/
def Obligations.AdvanceIsInstructionLength : Prop :=
  ∀ (i : Instr) (s t : State), s.state = .running → exec i s = .next t → t.state = .running →
    i.format ≠ .RR → t.ip = s.ip + i.len

/-- The next fetch sees a store (R63, R65): one of ADD, MUL, LT or EQ in the next instruction's word, one of IN there, and one the host
injects at `ip`. -/
def Obligations.FetchSeesEarlierStores : Prop :=
  (∀ (s : State) (i : Instr) (a b r : Int), s.mem.wf → readOperand (s.latch i.modes) .one = .ok a →
    readOperand (s.latch i.modes) .two = .ok b → resolveAddr (s.latch i.modes) .three .write = .ok (s.ip + 4) →
    (i.opcode = 1 ∧ r = a + b ∧ fits s.cfg r = true ∨ i.opcode = 2 ∧ r = a * b ∧ fits s.cfg r = true ∨
      i.opcode = 7 ∧ r = (if a < b then 1 else 0) ∨ i.opcode = 8 ∧ r = (if a = b then 1 else 0)) →
    ∃ t, exec i s = .next t ∧ t.ip = s.ip + 4 ∧ memRead t t.ip = .ok r) ∧
  (∀ (s : State) (m1 m2 m3 : Mode) (v : Int) (rest : List Int), s.mem.wf → s.inq = v :: rest →
    resolveAddr (s.latch ⟨m1, m2, m3⟩) .one .write = .ok (s.ip + 2) →
    ∃ t, exec (.inp m1 m2 m3) s = .next t ∧ t.ip = s.ip + 2 ∧ memRead t t.ip = .ok v) ∧
  ∀ (s t : State) (v : Int), s.mem.wf → inject s s.ip v = .ok t → t.ip = s.ip ∧ memRead t t.ip = .ok v

/-- R150: what a run computes at 64 bits without overflowing, it computes at every greater width and at INF: all its computed values
lie in the 64-bit range, and the result does not depend on WORD_BITS. -/
def Obligations.ResultIndependentOfWidth : Prop :=
  ∀ (fuel : Nat) (s t : State) (w : Option Nat), s.cfg.wordBits = some 64 → (∀ n ∈ w, 64 ≤ n) →
    runLoop fuel s = some t → t.fault.code ≠ .overflow →
    runLoop fuel (withWidth s w) = some (withWidth t w)

/-! ### Invariants -/

/-- The reset state is legal, and is what construct makes of the empty program with the default parameters (the parameters and the empty
program are the model's choice: log 2, log 11). -/
def Obligations.ResetIsLegal : Prop :=
  State.reset.Legal ∧ construct Config.standard [] = .ok State.reset

/-- Every step from every legal state ends in a legal state: the tape stays canonical, every word in range and every listed cell below
MEM_LIMIT, and the fault record matches the run state. -/
def Obligations.StepKeepsLegal : Prop :=
  ∀ s t : State, s.Legal → step s = .next t → t.Legal

/-- Every host command and every turn of a run keep a legal session legal, whatever the command's operands. -/
def Obligations.SessionStaysLegal : Prop :=
  (∀ c : Config, c.wf → (Session.start c).Legal) ∧
  (∀ (h : Session) (cmd : HostCmd), h.Legal → (h.issue cmd).1.Legal) ∧
  ∀ h : Session, h.Legal → h.tick.1.Legal

/-! ### Runs, pause and resume -/

/-- R129: the run loop under fuel and the loop without fuel agree: it returns for some fuel exactly when the loop ends, in the same
state, which is not Running; more fuel changes nothing. -/
def Obligations.FuelledLoopIsRunLoop : Prop :=
  (∀ s t : State, RunsTo s t ↔ ∃ fuel, runLoop fuel s = some t) ∧
  (∀ (fuel more : Nat) (s t : State), runLoop fuel s = some t → runLoop (fuel + more) s = some t) ∧
  ∀ s t : State, RunsTo s t → t.state ≠ .running ∧ ∀ u, RunsTo s u → u = t

/-- R131: resume() makes a Paused Machine Running and runs; on a Running Machine it is run(); on Halted and Faulted it changes
nothing. -/
def Obligations.ResumeOutcomes : Prop :=
  ∀ (fuel : Nat) (s : State),
    (s.state = .paused → resume fuel s = run fuel { s with state := .running }) ∧
    (s.state = .running → resume fuel s = run fuel s) ∧
    (s.state = .halted → resume fuel s = some (s, ⟨.halted, none⟩)) ∧
    (s.state = .faulted → resume fuel s = some (s, ⟨.faulted, some s.fault⟩))

/-- A step that pauses is an IN with an empty queue; after the host extends the queue the Machine is still Paused and steps to itself,
and once woken it retries that IN, which takes the front of the new words (R34, R131, R249; that it steps to itself is log 6, and
that the latch is the same in the pause and after the retry log 18). -/
def Obligations.PausedInputIsRetried : Prop :=
  ∀ (s p q : State) (v : Int) (vs : List Int), s.state = .running → step s = .next p → p.state = .paused →
    extendInput p (v :: vs) = .ok q →
    q.state = .paused ∧ step q = .next q ∧
    ∃ (m1 m2 m3 : Mode) (d : Nat), decodeWord (s.mem.get s.ip) = .ok (.inp m1 m2 m3) ∧
      resolveAddr (s.latch ⟨m1, m2, m3⟩) .one .write = .ok d ∧
      step q.wake = .next { q with state := .running, inq := vs, mem := s.mem.set d v, ip := s.ip + 2 }

/-! ### Host operations -/

/-- R242, R36: construct makes the reset state around the program, or fails with ValueRange or HostCapacity; that ValueRange
comes first when both apply is log 12. -/
def Obligations.ConstructOutcomes : Prop :=
  ∀ (c : Config) (p : List Int),
    ((∃ v ∈ p, fits c v = false) → construct c p = .error .valueRange) ∧
    ((∀ v ∈ p, fits c v = true) → (∃ l ∈ c.memLimit, l < p.length) → construct c p = .error .hostCapacity) ∧
    ((∀ v ∈ p, fits c v = true) → (∀ l ∈ c.memLimit, p.length ≤ l) →
      ∃ s, construct c p = .ok s ∧ s.cfg = c ∧ (∀ (a : Nat) (h : a < p.length), s.mem.get a = p[a]) ∧
        (∀ a : Nat, p.length ≤ a → s.mem.get a = 0) ∧ s.ip = 0 ∧ s.rb = 0 ∧ s.inq = [] ∧ s.outlog = [] ∧
        s.state = .running ∧ s.modes = ⟨.position, .position, .position⟩ ∧ s.fault = ⟨.none, .none, 0, 0, 0⟩)

/-- R321: reboot forgets everything that came before: it leaves what construct of the same program leaves, from whatever state. -/
def Obligations.RebootForgets : Prop :=
  ∀ (s : State) (p : List Int), reboot p s = construct s.cfg p

/-- R247, R248: what inject and read answer; an injected word is what read then gives, every other cell reads as before, and nothing
else changes; that an address error comes before ValueRange is log 12. -/
def Obligations.InjectAndReadOutcomes : Prop :=
  ∀ (s : State) (a v : Int), s.mem.wf →
    (a < 0 → inject s a v = .error .hostAddressError ∧ hostRead s a = .error .hostAddressError) ∧
    (0 ≤ a → inMemory s.cfg a.toNat = false → inject s a v = .error .hostCapacity ∧ hostRead s a = .error .hostCapacity) ∧
    (0 ≤ a → inMemory s.cfg a.toNat = true → hostRead s a = .ok (s.mem.get a.toNat)) ∧
    (0 ≤ a → inMemory s.cfg a.toNat = true → fits s.cfg v = false → inject s a v = .error .valueRange) ∧
    (0 ≤ a → inMemory s.cfg a.toNat = true → fits s.cfg v = true →
      ∃ m : Memory, inject s a v = .ok { s with mem := m } ∧
        ∀ b : Int, hostRead { s with mem := m } b = if b = a then .ok v else hostRead s b)

/-- R249, R250: extend_input appends all values or none; a drain moves the whole output log to the back of the target's input queue,
in order, and changes nothing else. -/
def Obligations.QueueOperationsOutcomes : Prop :=
  (∀ (s : State) (vs : List Int), ((∃ v ∈ vs, fits s.cfg v = false) → extendInput s vs = .error .valueRange) ∧
    ((∀ v ∈ vs, fits s.cfg v = true) → extendInput s vs = .ok { s with inq := s.inq ++ vs })) ∧
  (∀ (h : Session) (i j : Nat) (s t : State), h.active = none → i ≠ j → h.machines[i]? = some s → h.machines[j]? = some t →
    ∃ h', h.issue (.drainOutputInto i j) = (h', .ok) ∧ h'.machines[i]? = some { s with outlog := [] } ∧
      h'.machines[j]? = some { t with inq := t.inq ++ s.outlog } ∧
      ∀ k : Nat, k ≠ i → k ≠ j → h'.machines[k]? = h.machines[k]?) ∧
  ∀ (h : Session) (i : Nat) (s : State), h.active = none → h.machines[i]? = some s →
    h.issue (.drainOutputInto i i) = (h, .error .selfDrain)

/-- R252, R253: last_output and dump_output give the newest word and the whole log, or EmptyOutput. -/
def Obligations.OutputReadingOutcomes : Prop :=
  ∀ s : State,
    (s.outlog = [] → lastOutput s = .error .emptyOutput ∧ dumpOutput s = .error .emptyOutput) ∧
    ∀ (vs : List Int) (v : Int), s.outlog = vs ++ [v] → lastOutput s = .ok v ∧ dumpOutput s = .ok (vs ++ [v])

/-- R28, R29, R30, R254, R245: the encoding of the run state and of no fault, the layout of STATUS, the status port, and
is_running(), true exactly for Running and Paused. -/
def Obligations.StatusReadingOutcomes : Prop :=
  (RunState.running.bits = 0 ∧ RunState.paused.bits = 1 ∧ RunState.halted.bits = 2 ∧ RunState.faulted.bits = 3 ∧
    FaultCode.none.bits = 0 ∧ AddrCause.none.bits = 0) ∧
  ∀ s : State,
    ((statusWord s).extractLsb' 0 2 = s.state.bits ∧ (statusWord s).extractLsb' 2 3 = s.fault.code.bits ∧
      (statusWord s).extractLsb' 5 2 = s.fault.cause.bits ∧ (statusWord s).extractLsb' 7 1 = 0) ∧
    readStatus s 0 = .ok (statusWord s).toNat ∧ readStatus s 1 = .ok s.fault.ip ∧ readStatus s 2 = .ok s.fault.word ∧
    readStatus s 3 = .ok s.fault.info ∧ (∀ k : Int, k < 0 ∨ 3 < k → readStatus s k = .error .unknownPort) ∧
    (isRunning s = true ↔ s.state = .running ∨ s.state = .paused)

/-- R241: a command answered with a host error changes nothing, and one that names no Machine neither (log 14); the codes of the host
errors, and 0 for success. -/
def Obligations.HostErrorChangesNothing : Prop :=
  (∀ (h : Session) (cmd : HostCmd), (h.issue cmd).2.turnsAway = true → (h.issue cmd).1 = h) ∧
  (HostError.emptyOutput.code = 1 ∧ HostError.hostAddressError.code = 2 ∧ HostError.hostCapacity.code = 3 ∧
    HostError.valueRange.code = 4 ∧ HostError.selfDrain.code = 5 ∧ HostError.unknownPort.code = 6 ∧ HostError.busy.code = 7) ∧
  ∀ α : Type, (∀ x : α, hostCode (.ok x : Except HostError α) = 0) ∧
    ∀ e : HostError, hostCode (.error e : Except HostError α) = e.code

/-- R240: while a run is in progress every command is refused with Busy and changes nothing. That run and resume are refused too is
the model's reading (log 14). -/
def Obligations.BusyDuringARun : Prop :=
  ∀ (h : Session) (cmd : HostCmd), h.active ≠ none → h.issue cmd = (h, .error .busy)

/-- How a session runs a Machine and serves its commands. run and resume begin a run, resume after moving Paused to Running; a run in
progress executes steps of its own Machine until that Machine leaves Running, and then returns its exit report and ends (R129,
R131, R240, R243). With no run in progress every other command is the operation of its name on the Machine it names (drain and
clone: QueueOperationsOutcomes, CloneCopiesEveryField). That a reference is a place in a list and a run goes by turns is the
model's choice (log 14). -/
def Obligations.RunInProgressReturnsExitReport : Prop :=
  (∀ (h : Session) (i : Nat) (s : State), h.active = some i → h.machines[i]? = some s →
    (s.state = .running → ∃ t, step s = .next t ∧ h.tick = ({ h with machines := h.machines.set i t }, none)) ∧
    (s.state ≠ .running → h.tick = ({ h with active := none },
      some ⟨s.state, if s.state = .faulted then some s.fault else none⟩))) ∧
  (∀ (h : Session) (p : List Int), h.active = none → h.issue (.construct p) = created h (construct h.cfg p)) ∧
  ∀ (h : Session) (i : Nat) (s : State), h.active = none → h.machines[i]? = some s →
    h.issue (.run i) = ({ h with active := some i }, .begun) ∧
    h.issue (.resume i) =
      ({ h with machines := h.machines.set i (if s.state = .paused then { s with state := .running } else s),
                active := some i }, .begun) ∧
    (∀ p : List Int, h.issue (.reboot i p) = changed h i (reboot p s)) ∧
    (∀ a v : Int, h.issue (.inject i a v) = changed h i (inject s a v)) ∧
    (∀ vs : List Int, h.issue (.extendInput i vs) = changed h i (extendInput s vs)) ∧
    (∀ a : Int, h.issue (.read i a) = answered h ((hostRead s a).map .value)) ∧
    (∀ k : Int, h.issue (.readStatus i k) = answered h ((readStatus s k).map .value)) ∧
    h.issue (.lastOutput i) = answered h ((lastOutput s).map .value) ∧
    h.issue (.dumpOutput i) = answered h ((dumpOutput s).map .values) ∧
    h.issue (.isRunning i) = (h, .truth (isRunning s))

/-- R38: an operation changes no Machine but the ones it names, and a turn of a run no Machine but its own; no Machine disappears. -/
def Obligations.MachinesAreIsolated : Prop :=
  (∀ (h : Session) (cmd : HostCmd) (k : Nat), k < h.machines.length → k ∉ touched cmd →
    (h.issue cmd).1.machines[k]? = h.machines[k]?) ∧
  (∀ (h : Session) (k : Nat), h.active ≠ some k → h.tick.1.machines[k]? = h.machines[k]?) ∧
  ∀ (h : Session) (cmd : HostCmd), h.machines.length ≤ (h.issue cmd).1.machines.length

/-- R255: clone makes a new Machine equal to the source in every field and changes no other Machine. -/
def Obligations.CloneCopiesEveryField : Prop :=
  ∀ (h : Session) (i : Nat) (s : State), h.active = none → h.machines[i]? = some s →
    ∃ h', h.issue (.clone i) = (h', .machine h.machines.length) ∧ h'.machines[h.machines.length]? = some s ∧
      ∀ k : Nat, k < h.machines.length → h'.machines[k]? = h.machines[k]?

/-- R301: Halted and Faulted are absorbing under every operation except reboot, runs included; the fault record, `ip` and `rb` stay. -/
def Obligations.EndedMachineStaysEnded : Prop :=
  (∀ (h : Session) (cmd : HostCmd) (i : Nat) (s : State), h.machines[i]? = some s → s.ended → (∀ p, cmd ≠ .reboot i p) →
    ∃ t, (h.issue cmd).1.machines[i]? = some t ∧ t.state = s.state ∧ t.fault = s.fault ∧ t.ip = s.ip ∧ t.rb = s.rb) ∧
  ∀ (h : Session) (i : Nat) (s : State), h.machines[i]? = some s → s.ended → h.tick.1.machines[i]? = some s

/-! ### Program text and assembler -/

/-- R257: a written program reads back, white space (the four characters of log 17) anywhere makes no difference, and
the empty text is the empty program. -/
def Obligations.ProgramTextReadsBack : Prop :=
  (∀ p : List Int, readProgram (writeProgram p) = some p) ∧
  (∀ a b : List Char, ∀ c ∈ [' ', '\t', '\n', '\r'], readProgram (a ++ c :: b) = readProgram (a ++ b)) ∧
  readProgram [] = some []

/-- Disassembling a word of memory and assembling the result places the same words again (R97 against R92 to R94), for a canonical
instruction with no immediate write slot; a word that does not decode comes back through `.word`. -/
def Obligations.DisassemblyAssemblesBack : Prop :=
  (∀ (m : Memory) (a : Nat) (i : Instr) (table : List (AsmName × Nat)), decodeWord (m.get a) = .ok i →
    i.wellFormed = true → i.canonical = true →
    (disassembleAt m a).emit table = some ((List.range i.len).map fun k => m.get (a + k))) ∧
  ∀ (m : Memory) (a : Nat) (r : DecodeReject) (table : List (AsmName × Nat)), decodeWord (m.get a) = .error r →
    (disassembleAt m a).emit table = some [m.get a]
end

