-- ==== Sys2Proof/Laws/Memory.lean ====
section
/-! SUPPORT. The laws of the tape: read after write, and the canonical form, which every memory operation keeps. -/

namespace Sys2Proof.Machine

/-- An address below every listed one reads 0. -/
theorem cellsGet_eq_zero_of_lt {l : List (Nat × Int)} {a : Nat} (h : ∀ c ∈ l, a < c.1) : cellsGet l a = 0 := by
  induction l with
  | nil => rfl
  | cons c l ih =>
    have hc := h c (by simp)
    simp only [cellsGet]
    rw [if_neg (by omega)]
    exact ih fun d hd => h d (by simp [hd])

/-- Every cell of an updated list is the written one or an old one. -/
theorem mem_cellsSet {l : List (Nat × Int)} {a : Nat} {v : Int} {c : Nat × Int} (h : c ∈ cellsSet l a v) :
    (c = (a, v) ∧ v ≠ 0) ∨ c ∈ l := by
  induction l with
  | nil =>
    simp only [cellsSet] at h
    split at h
    · simp at h
    · exact .inl ⟨by simpa using h, ‹_›⟩
  | cons d l ih =>
    simp only [cellsSet] at h
    split at h
    · split at h
      · exact .inr h
      · rcases List.mem_cons.mp h with h | h
        · exact .inl ⟨h, ‹_›⟩
        · exact .inr h
    · split at h
      · split at h
        · exact .inr (by simp [h])
        · rcases List.mem_cons.mp h with h | h
          · exact .inl ⟨h, ‹_›⟩
          · exact .inr (by simp [h])
      · rcases List.mem_cons.mp h with h | h
        · exact .inr (by simp [h])
        · rcases ih h with h | h
          · exact .inl h
          · exact .inr (by simp [h])

/-- Updating keeps the addresses rising. -/
theorem cellsSet_sorted {l : List (Nat × Int)} (a : Nat) (v : Int) (h : l.Pairwise fun c d => c.1 < d.1) :
    (cellsSet l a v).Pairwise fun c d => c.1 < d.1 := by
  induction l with
  | nil => simp only [cellsSet]; split <;> simp
  | cons d l ih =>
    obtain ⟨hd, hl⟩ := List.pairwise_cons.mp h
    simp only [cellsSet]
    split
    · split
      · exact h
      · refine List.pairwise_cons.mpr ⟨fun c hc => ?_, h⟩
        rcases List.mem_cons.mp hc with rfl | hc
        · assumption
        · have := hd c hc
          show a < c.1
          omega
    · split
      · split
        · exact hl
        · rename_i hab _
          exact List.pairwise_cons.mpr ⟨fun c hc => by simpa [hab] using hd c hc, hl⟩
      · refine List.pairwise_cons.mpr ⟨fun c hc => ?_, ih hl⟩
        rcases mem_cellsSet hc with ⟨rfl, -⟩ | hc
        · show d.1 < a
          omega
        · exact hd c hc

/-- Reading a list of rising cells after an update. -/
theorem cellsGet_cellsSet {l : List (Nat × Int)} (a : Nat) (v : Int) (b : Nat)
    (h : l.Pairwise fun c d => c.1 < d.1) : cellsGet (cellsSet l a v) b = if b = a then v else cellsGet l b := by
  induction l with
  | nil =>
    simp only [cellsSet]
    split <;> rename_i hv <;> simp only [cellsGet]
    split <;> simp [hv]
  | cons d l ih =>
    obtain ⟨hd, hl⟩ := List.pairwise_cons.mp h
    simp only [cellsSet]
    split
    · rename_i had
      have hz : cellsGet (d :: l) a = 0 := cellsGet_eq_zero_of_lt fun c hc => by
        rcases List.mem_cons.mp hc with rfl | hc
        · exact had
        · have := hd c hc
          omega
      split
      · rename_i hv
        split
        · rename_i hb
          rw [hb, hz, hv]
        · rfl
      · rfl
    · split
      · rename_i had
        have hz : cellsGet l a = 0 := cellsGet_eq_zero_of_lt fun c hc => by
          have := hd c hc
          omega
        split
        · rename_i hv
          simp only [cellsGet]
          split
          · rename_i hb
            rw [hb, hz, hv]
          · rw [if_neg (by omega)]
        · simp only [cellsGet]
          split
          · rfl
          · rw [if_neg (by omega)]
      · simp only [cellsGet]
        rw [ih hl]
        split
        · rename_i hb
          rw [if_neg (by omega)]
        · rfl

/-- A read gives 0 or the word of a listed cell. -/
theorem cellsGet_mem (l : List (Nat × Int)) (a : Nat) : cellsGet l a = 0 ∨ (a, cellsGet l a) ∈ l := by
  induction l with
  | nil => exact .inl rfl
  | cons c l ih =>
    simp only [cellsGet]
    split
    · rename_i h
      exact .inr (by simp [h])
    · rcases ih with h | h
      · exact .inl h
      · exact .inr (by simp [h])

/-- A listed cell of a rising list is what its address reads. -/
theorem cellsGet_of_mem {l : List (Nat × Int)} {c : Nat × Int} (h : l.Pairwise fun c d => c.1 < d.1) (hc : c ∈ l) :
    cellsGet l c.1 = c.2 := by
  induction l with
  | nil => simp at hc
  | cons d l ih =>
    obtain ⟨hd, hl⟩ := List.pairwise_cons.mp h
    simp only [cellsGet]
    rcases List.mem_cons.mp hc with rfl | hc
    · simp
    · have := hd c hc
      rw [if_neg (by omega)]
      exact ih hl hc

/-- Read after write (R53, R54): the written cell gives the value, every other cell keeps its own. -/
theorem Memory.get_set {m : Memory} (h : m.wf) (a : Nat) (v : Int) (b : Nat) :
    (m.set a v).get b = if b = a then v else m.get b :=
  cellsGet_cellsSet a v b h.1

/-- A write keeps the canonical form. -/
theorem Memory.wf_set {m : Memory} (h : m.wf) (a : Nat) (v : Int) : (m.set a v).wf := by
  refine ⟨cellsSet_sorted a v h.1, fun c hc => ?_⟩
  rcases mem_cellsSet hc with ⟨rfl, hv⟩ | hc
  · exact hv
  · exact h.2 c hc

/-- The empty memory is canonical. -/
theorem Memory.wf_empty : Memory.empty.wf := by simp [Memory.wf, Memory.empty]

/-- Every cell of a loaded program stands at one of its addresses and holds its word there, which is not 0. -/
theorem mem_cellsOfProgram {p : List Int} {a : Nat} {c : Nat × Int} (h : c ∈ cellsOfProgram a p) :
    a ≤ c.1 ∧ c.1 < a + p.length ∧ c.2 ∈ p ∧ c.2 ≠ 0 := by
  induction p generalizing a with
  | nil => simp [cellsOfProgram] at h
  | cons v p ih =>
    simp only [cellsOfProgram] at h
    split at h
    · obtain ⟨h1, h2, h3, h4⟩ := ih h
      exact ⟨by omega, by simp; omega, by simp [h3], h4⟩
    · rcases List.mem_cons.mp h with rfl | h
      · exact ⟨le_refl _, by simp, by simp, ‹_›⟩
      · obtain ⟨h1, h2, h3, h4⟩ := ih h
        exact ⟨by omega, by simp; omega, by simp [h3], h4⟩

/-- A loaded program's cells rise. -/
theorem cellsOfProgram_sorted (a : Nat) (p : List Int) : (cellsOfProgram a p).Pairwise fun c d => c.1 < d.1 := by
  induction p generalizing a with
  | nil => simp [cellsOfProgram]
  | cons v p ih =>
    simp only [cellsOfProgram]
    split
    · exact ih _
    · refine List.pairwise_cons.mpr ⟨fun c hc => ?_, ih _⟩
      have := (mem_cellsOfProgram hc).1
      show a < c.1
      omega

/-- A loaded memory is canonical. -/
theorem Memory.wf_ofProgram (p : List Int) : (Memory.ofProgram p).wf :=
  ⟨cellsOfProgram_sorted 0 p, fun _ hc => (mem_cellsOfProgram hc).2.2.2⟩

/-- Reading a program loaded from an address upward. -/
theorem cellsGet_cellsOfProgram (a : Nat) (p : List Int) (k : Nat) :
    cellsGet (cellsOfProgram a p) (a + k) = p.getD k 0 := by
  induction p generalizing a k with
  | nil => simp [cellsOfProgram, cellsGet]
  | cons v p ih =>
    have htail : ∀ j, cellsGet (cellsOfProgram (a + 1) p) (a + (j + 1)) = p.getD j 0 := fun j => by
      rw [← ih (a + 1) j]
      congr 1
      omega
    have hhead : cellsGet (cellsOfProgram (a + 1) p) a = 0 := cellsGet_eq_zero_of_lt fun c hc => by
      have := (mem_cellsOfProgram hc).1
      omega
    simp only [cellsOfProgram]
    cases k with
    | zero =>
      split
      · rename_i hv
        simpa [hv] using hhead
      · simp [cellsGet]
    | succ j =>
      split
      · simpa using htail j
      · simp only [cellsGet]
        rw [if_neg (by omega)]
        simpa using htail j

/-- `M[a] = p_a` below the program's length and 0 above (R36). -/
theorem Memory.get_ofProgram (p : List Int) (a : Nat) : (Memory.ofProgram p).get a = p.getD a 0 := by
  simpa [Memory.get, Memory.ofProgram] using cellsGet_cellsOfProgram 0 p a

end Sys2Proof.Machine
end

