-- ==== Sys2Proof/Laws/Operands.lean ====
section
/-! SUPPORT. What the address checks, the memory primitives and the resolver can answer, said once. -/

namespace Sys2Proof.Machine

/-- The address check passes exactly the addresses. -/
theorem checkAddr_eq_ok_iff {c : Config} {a : Int} {n : Nat} :
    checkAddr c a = .ok n ↔ a = (n : Int) ∧ inMemory c n = true := by
  unfold checkAddr
  split
  · simp only [reduceCtorEq, false_iff, not_and]
    omega
  · split
    · rename_i h
      constructor
      · rintro ⟨⟩
        exact ⟨by omega, h⟩
      · rintro ⟨rfl, -⟩
        simp
    · rename_i h
      simp only [reduceCtorEq, false_iff, not_and]
      rintro rfl
      simpa using h

/-- The address check fails below 0, and at or above the limit. -/
theorem checkAddr_eq_error_iff {c : Config} {a : Int} {f : Fault} :
    checkAddr c a = .error f ↔
      (a < 0 ∧ f = .negativeAddress a) ∨ (0 ≤ a ∧ inMemory c a.toNat = false ∧ f = .capacityExceeded a) := by
  unfold checkAddr
  split
  · rename_i h
    simp only [Except.error.injEq]
    constructor
    · rintro rfl
      exact .inl ⟨h, rfl⟩
    · rintro (⟨-, rfl⟩ | ⟨h', -⟩)
      · rfl
      · omega
  · split
    · rename_i h h'
      simp [h, h']
    · rename_i h h'
      simp only [Except.error.injEq]
      constructor
      · rintro rfl
        exact .inr ⟨by omega, by simpa using h', rfl⟩
      · rintro (⟨h1, -⟩ | ⟨-, -, rfl⟩)
        · omega
        · rfl

/-- A valid address passes the check. -/
theorem checkAddr_natCast {c : Config} {n : Nat} (h : inMemory c n = true) : checkAddr c (n : Int) = .ok n :=
  checkAddr_eq_ok_iff.mpr ⟨rfl, h⟩

/-- `MemRead` at a valid address (R52). -/
theorem memRead_natCast {s : State} {n : Nat} (h : inMemory s.cfg n = true) : memRead s (n : Int) = .ok (s.mem.get n) := by
  simp [memRead, checkAddr_natCast h, bind, Except.bind, pure, Except.pure]

/-- `MemRead` answers the cell's word at a valid address and nothing elsewhere (R52). -/
theorem memRead_eq_ok_iff {s : State} {a : Int} {v : Int} :
    memRead s a = .ok v ↔ ∃ n : Nat, a = (n : Int) ∧ inMemory s.cfg n = true ∧ v = s.mem.get n := by
  unfold memRead
  cases h : checkAddr s.cfg a with
  | error f =>
    simp only [bind, Except.bind, reduceCtorEq, false_iff, not_exists, not_and]
    rintro n rfl hn
    rw [checkAddr_natCast hn] at h
    cases h
  | ok n =>
    obtain ⟨rfl, hn⟩ := checkAddr_eq_ok_iff.mp h
    simp only [bind, Except.bind, pure, Except.pure, Except.ok.injEq]
    constructor
    · rintro rfl
      exact ⟨n, rfl, hn, rfl⟩
    · rintro ⟨k, hk, -, rfl⟩
      rw [show k = n by omega]

/-- `MemRead` fails as its address check does (R52). -/
theorem memRead_eq_error_iff {s : State} {a : Int} {f : Fault} :
    memRead s a = .error f ↔ checkAddr s.cfg a = .error f := by
  unfold memRead
  cases checkAddr s.cfg a <;> simp [bind, Except.bind, pure, Except.pure]

/-- `MemWrite` at a valid address (R53). -/
theorem memWrite_natCast {s : State} {n : Nat} {v : Int} (h : inMemory s.cfg n = true) :
    memWrite s (n : Int) v = .ok { s with mem := s.mem.set n v } := by
  simp [memWrite, checkAddr_natCast h, bind, Except.bind, pure, Except.pure]

/-- A resolved address is an address (R121). -/
theorem resolveAddr_inMemory {s : State} {k : Slot} {acc : Access} {d : Nat} (h : resolveAddr s k acc = .ok d) :
    inMemory s.cfg d = true := by
  unfold resolveAddr at h
  split at h
  · split at h
    · cases h
    · exact (checkAddr_eq_ok_iff.mp h).2
  · cases hm : memRead s ((s.ip + k.num : Nat) : Int) <;> simp only [hm, bind, Except.bind, reduceCtorEq] at h
    exact (checkAddr_eq_ok_iff.mp h).2
  · cases hm : memRead s ((s.ip + k.num : Nat) : Int) <;> simp only [hm, bind, Except.bind, reduceCtorEq] at h
    exact (checkAddr_eq_ok_iff.mp h).2

/-- The resolver raises the faults of an address check or ImmediateWrite, no other. -/
theorem resolveAddr_error_cases {s : State} {k : Slot} {acc : Access} {f : Fault} (h : resolveAddr s k acc = .error f) :
    f = .immediateWrite k ∨ ∃ a : Int, checkAddr s.cfg a = .error f := by
  unfold resolveAddr at h
  split at h
  · split at h
    · cases h
      exact .inl rfl
    · exact .inr ⟨_, h⟩
  · cases hm : memRead s ((s.ip + k.num : Nat) : Int) <;> simp only [hm, bind, Except.bind] at h
    · cases h
      exact .inr ⟨_, memRead_eq_error_iff.mp hm⟩
    · exact .inr ⟨_, h⟩
  · cases hm : memRead s ((s.ip + k.num : Nat) : Int) <;> simp only [hm, bind, Except.bind] at h
    · cases h
      exact .inr ⟨_, memRead_eq_error_iff.mp hm⟩
    · exact .inr ⟨_, h⟩

/-- A read operand is the word at its resolved address (R122). -/
theorem readOperand_eq_ok_iff {s : State} {k : Slot} {v : Int} :
    readOperand s k = .ok v ↔ ∃ a, resolveAddr s k .read = .ok a ∧ v = s.mem.get a := by
  unfold readOperand
  cases h : resolveAddr s k .read with
  | error f => simp [bind, Except.bind]
  | ok a =>
    simp only [bind, Except.bind, memRead_natCast (resolveAddr_inMemory h), Except.ok.injEq]
    constructor
    · rintro rfl
      exact ⟨a, rfl, rfl⟩
    · rintro ⟨_, rfl, rfl⟩
      rfl

/-- A read operand fails exactly as its resolution does (R122). -/
theorem readOperand_eq_error_iff {s : State} {k : Slot} {f : Fault} :
    readOperand s k = .error f ↔ resolveAddr s k .read = .error f := by
  unfold readOperand
  cases h : resolveAddr s k .read with
  | error g => simp [bind, Except.bind]
  | ok a => simp [bind, Except.bind, memRead_natCast (resolveAddr_inMemory h)]

/-- The address check reads `MEM_LIMIT` only. -/
theorem checkAddr_congr {c d : Config} (h : c.memLimit = d.memLimit) (a : Int) : checkAddr c a = checkAddr d a := by
  have hm : ∀ n, inMemory c n = inMemory d n := fun n => by simp only [inMemory, h]
  simp only [checkAddr, hm]

/-- The resolver reads the configuration, the tape, `ip`, `rb` and the latch only. -/
theorem resolveAddr_congr {s t : State} (hc : s.cfg.memLimit = t.cfg.memLimit) (hm : s.mem = t.mem) (hi : s.ip = t.ip)
    (hr : s.rb = t.rb) {k : Slot} (ho : s.modes.of k = t.modes.of k) (acc : Access) :
    resolveAddr s k acc = resolveAddr t k acc := by
  have hcheck : ∀ a, checkAddr s.cfg a = checkAddr t.cfg a := checkAddr_congr hc
  simp [resolveAddr, memRead, hcheck, hm, hi, hr, ho]

/-- A read operand likewise. -/
theorem readOperand_congr {s t : State} (hc : s.cfg.memLimit = t.cfg.memLimit) (hm : s.mem = t.mem) (hi : s.ip = t.ip)
    (hr : s.rb = t.rb) {k : Slot} (ho : s.modes.of k = t.modes.of k) : readOperand s k = readOperand t k := by
  have hcheck : ∀ a, checkAddr s.cfg a = checkAddr t.cfg a := checkAddr_congr hc
  simp [readOperand, memRead, resolveAddr_congr hc hm hi hr ho .read, hcheck, hm]

/-- `Checked` passes exactly the words (R124). -/
theorem checked_eq_ok_iff {c : Config} {v r : Int} : checked c v = .ok r ↔ fits c v = true ∧ r = v := by
  unfold checked
  split <;> rename_i h <;> simp [h, eq_comm]

/-- `Checked` raises Overflow for everything else (R124). -/
theorem checked_eq_error_iff {c : Config} {v : Int} {f : Fault} :
    checked c v = .error f ↔ fits c v = false ∧ f = .overflow := by
  unfold checked
  split <;> rename_i h <;> simp [h, eq_comm]

/-- What it is to be a word (R10). -/
theorem fits_iff {c : Config} {v : Int} : fits c v = true ↔ ∀ w ∈ c.wordBits, wordMin w ≤ v ∧ v ≤ wordMax w := by
  unfold fits
  cases c.wordBits <;> simp

/-- 0 and 1 are words of every well-formed width (R10). -/
theorem fits_boolWord {c : Config} (h : c.wf) (b : Bool) : fits c (boolWord b) = true := by
  refine fits_iff.mpr fun w hw => ?_
  have h2 : 2 ≤ w := h w hw
  have hp : 2 ≤ 2 ^ (w - 1) := by
    calc 2 = 2 ^ 1 := rfl
      _ ≤ 2 ^ (w - 1) := Nat.pow_le_pow_right (by omega) (by omega)
  have : boolWord b = 0 ∨ boolWord b = 1 := by cases b <;> simp [boolWord]
  simp only [wordMin, wordMax]
  omega

/-- 0 is a word of every well-formed width. -/
theorem fits_zero {c : Config} (h : c.wf) : fits c 0 = true := fits_boolWord h false

end Sys2Proof.Machine
end

