-- ==== Sys2Proof/Laws/State.lean ====
section
/-! SUPPORT. One lemma per field per named update of State, so that no proof unfolds a record update. -/

namespace Sys2Proof.Machine

@[simp] theorem State.latch_cfg (s : State) (m : Modes) : (s.latch m).cfg = s.cfg := rfl
@[simp] theorem State.latch_mem (s : State) (m : Modes) : (s.latch m).mem = s.mem := rfl
@[simp] theorem State.latch_ip (s : State) (m : Modes) : (s.latch m).ip = s.ip := rfl
@[simp] theorem State.latch_rb (s : State) (m : Modes) : (s.latch m).rb = s.rb := rfl
@[simp] theorem State.latch_modes (s : State) (m : Modes) : (s.latch m).modes = m := rfl
@[simp] theorem State.latch_inq (s : State) (m : Modes) : (s.latch m).inq = s.inq := rfl
@[simp] theorem State.latch_outlog (s : State) (m : Modes) : (s.latch m).outlog = s.outlog := rfl
@[simp] theorem State.latch_state (s : State) (m : Modes) : (s.latch m).state = s.state := rfl
@[simp] theorem State.latch_fault (s : State) (m : Modes) : (s.latch m).fault = s.fault := rfl

@[simp] theorem State.advance_cfg (s : State) (n : Nat) : (s.advance n).cfg = s.cfg := rfl
@[simp] theorem State.advance_mem (s : State) (n : Nat) : (s.advance n).mem = s.mem := rfl
@[simp] theorem State.advance_ip (s : State) (n : Nat) : (s.advance n).ip = s.ip + n := rfl
@[simp] theorem State.advance_rb (s : State) (n : Nat) : (s.advance n).rb = s.rb := rfl
@[simp] theorem State.advance_modes (s : State) (n : Nat) : (s.advance n).modes = s.modes := rfl
@[simp] theorem State.advance_inq (s : State) (n : Nat) : (s.advance n).inq = s.inq := rfl
@[simp] theorem State.advance_outlog (s : State) (n : Nat) : (s.advance n).outlog = s.outlog := rfl
@[simp] theorem State.advance_state (s : State) (n : Nat) : (s.advance n).state = s.state := rfl
@[simp] theorem State.advance_fault (s : State) (n : Nat) : (s.advance n).fault = s.fault := rfl

@[simp] theorem State.emit_cfg (s : State) (v : Int) : (s.emit v).cfg = s.cfg := rfl
@[simp] theorem State.emit_mem (s : State) (v : Int) : (s.emit v).mem = s.mem := rfl
@[simp] theorem State.emit_ip (s : State) (v : Int) : (s.emit v).ip = s.ip := rfl
@[simp] theorem State.emit_rb (s : State) (v : Int) : (s.emit v).rb = s.rb := rfl
@[simp] theorem State.emit_modes (s : State) (v : Int) : (s.emit v).modes = s.modes := rfl
@[simp] theorem State.emit_inq (s : State) (v : Int) : (s.emit v).inq = s.inq := rfl
@[simp] theorem State.emit_outlog (s : State) (v : Int) : (s.emit v).outlog = s.outlog ++ [v] := rfl
@[simp] theorem State.emit_state (s : State) (v : Int) : (s.emit v).state = s.state := rfl
@[simp] theorem State.emit_fault (s : State) (v : Int) : (s.emit v).fault = s.fault := rfl

@[simp] theorem State.pause_cfg (s : State) : (s.pause).cfg = s.cfg := rfl
@[simp] theorem State.pause_mem (s : State) : (s.pause).mem = s.mem := rfl
@[simp] theorem State.pause_ip (s : State) : (s.pause).ip = s.ip := rfl
@[simp] theorem State.pause_rb (s : State) : (s.pause).rb = s.rb := rfl
@[simp] theorem State.pause_modes (s : State) : (s.pause).modes = s.modes := rfl
@[simp] theorem State.pause_inq (s : State) : (s.pause).inq = s.inq := rfl
@[simp] theorem State.pause_outlog (s : State) : (s.pause).outlog = s.outlog := rfl
@[simp] theorem State.pause_state (s : State) : (s.pause).state = .paused := rfl
@[simp] theorem State.pause_fault (s : State) : (s.pause).fault = s.fault := rfl

@[simp] theorem State.halt_cfg (s : State) : (s.halt).cfg = s.cfg := rfl
@[simp] theorem State.halt_mem (s : State) : (s.halt).mem = s.mem := rfl
@[simp] theorem State.halt_ip (s : State) : (s.halt).ip = s.ip := rfl
@[simp] theorem State.halt_rb (s : State) : (s.halt).rb = s.rb := rfl
@[simp] theorem State.halt_modes (s : State) : (s.halt).modes = s.modes := rfl
@[simp] theorem State.halt_inq (s : State) : (s.halt).inq = s.inq := rfl
@[simp] theorem State.halt_outlog (s : State) : (s.halt).outlog = s.outlog := rfl
@[simp] theorem State.halt_state (s : State) : (s.halt).state = .halted := rfl
@[simp] theorem State.halt_fault (s : State) : (s.halt).fault = s.fault := rfl

@[simp] theorem State.enterFault_cfg (s : State) (w : Int) (f : Fault) : (s.enterFault w f).cfg = s.cfg := rfl
@[simp] theorem State.enterFault_mem (s : State) (w : Int) (f : Fault) : (s.enterFault w f).mem = s.mem := rfl
@[simp] theorem State.enterFault_ip (s : State) (w : Int) (f : Fault) : (s.enterFault w f).ip = s.ip := rfl
@[simp] theorem State.enterFault_rb (s : State) (w : Int) (f : Fault) : (s.enterFault w f).rb = s.rb := rfl
@[simp] theorem State.enterFault_modes (s : State) (w : Int) (f : Fault) : (s.enterFault w f).modes = s.modes := rfl
@[simp] theorem State.enterFault_inq (s : State) (w : Int) (f : Fault) : (s.enterFault w f).inq = s.inq := rfl
@[simp] theorem State.enterFault_outlog (s : State) (w : Int) (f : Fault) : (s.enterFault w f).outlog = s.outlog := rfl
@[simp] theorem State.enterFault_state (s : State) (w : Int) (f : Fault) : (s.enterFault w f).state = .faulted := rfl
@[simp] theorem State.enterFault_fault (s : State) (w : Int) (f : Fault) : (s.enterFault w f).fault = f.record s.ip w := rfl

@[simp] theorem State.resetWith_cfg (c : Config) (m : Memory) : (State.resetWith c m).cfg = c := rfl
@[simp] theorem State.resetWith_mem (c : Config) (m : Memory) : (State.resetWith c m).mem = m := rfl
@[simp] theorem State.resetWith_ip (c : Config) (m : Memory) : (State.resetWith c m).ip = 0 := rfl
@[simp] theorem State.resetWith_rb (c : Config) (m : Memory) : (State.resetWith c m).rb = 0 := rfl
@[simp] theorem State.resetWith_modes (c : Config) (m : Memory) : (State.resetWith c m).modes = ⟨.position, .position, .position⟩ := rfl
@[simp] theorem State.resetWith_inq (c : Config) (m : Memory) : (State.resetWith c m).inq = [] := rfl
@[simp] theorem State.resetWith_outlog (c : Config) (m : Memory) : (State.resetWith c m).outlog = [] := rfl
@[simp] theorem State.resetWith_state (c : Config) (m : Memory) : (State.resetWith c m).state = .running := rfl
@[simp] theorem State.resetWith_fault (c : Config) (m : Memory) : (State.resetWith c m).fault = FaultRecord.clear := rfl

@[simp] theorem State.wake_cfg (s : State) : s.wake.cfg = s.cfg := by unfold State.wake; split <;> rfl
@[simp] theorem State.wake_mem (s : State) : s.wake.mem = s.mem := by unfold State.wake; split <;> rfl
@[simp] theorem State.wake_ip (s : State) : s.wake.ip = s.ip := by unfold State.wake; split <;> rfl
@[simp] theorem State.wake_rb (s : State) : s.wake.rb = s.rb := by unfold State.wake; split <;> rfl
@[simp] theorem State.wake_modes (s : State) : s.wake.modes = s.modes := by unfold State.wake; split <;> rfl
@[simp] theorem State.wake_inq (s : State) : s.wake.inq = s.inq := by unfold State.wake; split <;> rfl
@[simp] theorem State.wake_outlog (s : State) : s.wake.outlog = s.outlog := by unfold State.wake; split <;> rfl
@[simp] theorem State.wake_fault (s : State) : s.wake.fault = s.fault := by unfold State.wake; split <;> rfl

/-- Waking a Paused Machine makes it Running (R131). -/
theorem State.wake_of_paused {s : State} (h : s.state = .paused) : s.wake = { s with state := .running } := by
  simp [State.wake, h]

/-- Waking any other Machine changes nothing (R131, R300). -/
theorem State.wake_of_not_paused {s : State} (h : s.state ≠ .paused) : s.wake = s := by
  simp [State.wake, h]

@[simp] theorem Fault.record_code (f : Fault) (a : Nat) (w : Int) : (f.record a w).code = f.code := rfl
@[simp] theorem Fault.record_cause (f : Fault) (a : Nat) (w : Int) : (f.record a w).cause = f.cause := rfl
@[simp] theorem Fault.record_ip (f : Fault) (a : Nat) (w : Int) : (f.record a w).ip = a := rfl
@[simp] theorem Fault.record_word (f : Fault) (a : Nat) (w : Int) : (f.record a w).word = w := rfl
@[simp] theorem Fault.record_info (f : Fault) (a : Nat) (w : Int) : (f.record a w).info = f.info := rfl

/-- A raised fault is never recorded as None. -/
@[simp] theorem Fault.code_ne_none (f : Fault) : f.code ≠ .none := by
  cases f <;> simp [Fault.code]

/-- A fault has a cause exactly when it is an AddressError (R27, R280). -/
theorem Fault.cause_ne_none_iff (f : Fault) : f.cause ≠ .none ↔ f.code = .addressError := by
  cases f <;> simp [Fault.cause, Fault.code]

end Sys2Proof.Machine
end

