-- ==== Sys2Proof/Laws/Handlers.lean ====
section
/-! SUPPORT. What the shared handlers, an instruction, and a step can do, said once: a proof about a next state takes the cases
here and unfolds nothing. -/

namespace Sys2Proof.Machine

/-- A handler's answer is a next state: its result, or the fault it raised, taken (R110, R290). -/
theorem runHandler_eq_next_iff {m : Modes} {s t : State} {h : State → Except Fault State} :
    runHandler m s h = .next t ↔
      h (s.latch m) = .ok t ∨ ∃ f, h (s.latch m) = .error f ∧ t = (s.latch m).enterFault (s.mem.get s.ip) f := by
  unfold runHandler
  cases h (s.latch m) <;> simp [eq_comm]

/-- A handler that succeeds is the next state. -/
theorem runHandler_of_ok {m : Modes} {s t : State} {h : State → Except Fault State} (hh : h (s.latch m) = .ok t) :
    runHandler m s h = .next t := by simp [runHandler, hh]

/-- A handler that raises is its fault, taken. -/
theorem runHandler_of_error {m : Modes} {s : State} {h : State → Except Fault State} {f : Fault}
    (hh : h (s.latch m) = .error f) :
    runHandler m s h = .next ((s.latch m).enterFault (s.mem.get s.ip) f) := by simp [runHandler, hh]

/-- What format RRW commits. -/
theorem binaryHandler_eq_ok_iff {alu : Config → Int → Int → Except Fault Int} {s t : State} :
    binaryHandler alu s = .ok t ↔
      ∃ a b d r, readOperand s .one = .ok a ∧ readOperand s .two = .ok b ∧ resolveAddr s .three .write = .ok d ∧
        alu s.cfg a b = .ok r ∧ t = { s with mem := s.mem.set d r, ip := s.ip + 4 } := by
  unfold binaryHandler
  cases h1 : readOperand s .one with
  | error f => simp [bind, Except.bind]
  | ok a =>
    cases h2 : readOperand s .two with
    | error f => simp [bind, Except.bind]
    | ok b =>
      cases h3 : resolveAddr s .three .write with
      | error f => simp [bind, Except.bind]
      | ok d =>
        cases h4 : alu s.cfg a b with
        | error f => simp [bind, Except.bind, h4]
        | ok r =>
          simp only [bind, Except.bind, h4, memWrite_natCast (resolveAddr_inMemory h3), pure, Except.pure, State.advance,
            Except.ok.injEq]
          constructor
          · rintro rfl
            exact ⟨a, b, d, r, rfl, rfl, rfl, h4, rfl⟩
          · rintro ⟨_, _, _, _, rfl, rfl, rfl, hr, rfl⟩
            cases h4.symm.trans hr
            rfl

/-- What format RR commits: a taken jump or the advance. -/
theorem jumpHandler_eq_ok_iff {taken : Int → Bool} {s t : State} :
    jumpHandler taken s = .ok t ↔
      ∃ a v, readOperand s .one = .ok a ∧ readOperand s .two = .ok v ∧
        ((taken a = true ∧ 0 ≤ v ∧ t = { s with ip := v.toNat }) ∨ (taken a = false ∧ t = s.advance 3)) := by
  unfold jumpHandler
  cases h1 : readOperand s .one with
  | error f => simp [bind, Except.bind]
  | ok a =>
    cases h2 : readOperand s .two with
    | error f => simp [bind, Except.bind]
    | ok v =>
      cases ht : taken a
      · simp only [bind, Except.bind, pure, Except.pure, ht, Bool.false_eq_true, if_false, Except.ok.injEq]
        constructor
        · rintro rfl
          exact ⟨a, v, rfl, rfl, .inr ⟨ht, rfl⟩⟩
        · rintro ⟨_, _, rfl, rfl, ⟨h, -⟩ | ⟨-, rfl⟩⟩
          · simp [ht] at h
          · rfl
      · simp only [bind, Except.bind, ht, if_true, jumpTo]
        split
        · rename_i hv
          simp only [reduceCtorEq, false_iff]
          rintro ⟨a', v', ha, hv', h⟩
          cases ha
          cases hv'
          rcases h with ⟨-, h, -⟩ | ⟨h, -⟩
          · omega
          · simp [ht] at h
        · rename_i hv
          simp only [Except.ok.injEq]
          constructor
          · rintro rfl
            exact ⟨a, v, rfl, rfl, .inl ⟨ht, by omega, rfl⟩⟩
          · rintro ⟨_, _, rfl, rfl, ⟨-, -, rfl⟩ | ⟨h, -⟩⟩
            · rfl
            · simp [ht] at h

/-- What IN commits: the front word moved, or the pause. -/
theorem inputHandler_eq_ok_iff {s t : State} :
    inputHandler s = .ok t ↔
      ∃ d, resolveAddr s .one .write = .ok d ∧
        ((s.inq = [] ∧ t = s.pause) ∨
          ∃ v rest, s.inq = v :: rest ∧ t = { s with inq := rest, mem := s.mem.set d v, ip := s.ip + 2 }) := by
  unfold inputHandler
  cases hd : resolveAddr s .one .write with
  | error f => simp [bind, Except.bind]
  | ok d =>
    cases hq : s.inq with
    | nil =>
      simp only [bind, Except.bind, pure, Except.pure, Except.ok.injEq]
      constructor
      · rintro rfl
        exact ⟨d, rfl, .inl ⟨trivial, rfl⟩⟩
      · rintro ⟨_, -, ⟨-, rfl⟩ | ⟨_, _, h, -⟩⟩
        · rfl
        · cases h
    | cons v rest =>
      have hw := memWrite_natCast (s := { s with inq := rest }) (n := d) (v := v)
        (show inMemory s.cfg d = true from resolveAddr_inMemory hd)
      simp only [bind, Except.bind, hw, pure, Except.pure, State.advance, Except.ok.injEq]
      constructor
      · rintro rfl
        exact ⟨d, rfl, .inr ⟨v, rest, rfl, rfl⟩⟩
      · rintro ⟨_, rfl, ⟨h, -⟩ | ⟨_, _, h, rfl⟩⟩
        · cases h
        · cases h
          rfl

/-- What OUT commits. -/
theorem outputHandler_eq_ok_iff {s t : State} :
    outputHandler s = .ok t ↔ ∃ a, readOperand s .one = .ok a ∧ t = (s.emit a).advance 2 := by
  unfold outputHandler
  cases readOperand s .one with
  | error f => simp [bind, Except.bind]
  | ok a =>
    simp only [bind, Except.bind, pure, Except.pure, Except.ok.injEq]
    constructor
    · rintro rfl
      exact ⟨a, rfl, rfl⟩
    · rintro ⟨_, rfl, rfl⟩
      rfl

/-- What ARB commits. -/
theorem rebaseHandler_eq_ok_iff {s t : State} :
    rebaseHandler s = .ok t ↔
      ∃ a, readOperand s .one = .ok a ∧ fits s.cfg (s.rb + a) = true ∧ t = { s with rb := s.rb + a, ip := s.ip + 2 } := by
  unfold rebaseHandler
  cases readOperand s .one with
  | error f => simp [bind, Except.bind]
  | ok a =>
    simp only [bind, Except.bind]
    cases hc : checked s.cfg (s.rb + a) with
    | error f =>
      simp only [reduceCtorEq, false_iff]
      rintro ⟨_, h, hf, -⟩
      cases h
      cases hc.symm.trans (checked_eq_ok_iff.mpr ⟨hf, rfl⟩)
    | ok n =>
      obtain ⟨hf, rfl⟩ := checked_eq_ok_iff.mp hc
      simp only [pure, Except.pure, State.advance, Except.ok.injEq]
      constructor
      · rintro rfl
        exact ⟨a, rfl, hf, rfl⟩
      · rintro ⟨_, rfl, -, rfl⟩
        rfl

/-! ### Which fault a handler raises (R125) -/

/-- Format RRW fails in a slot or in the ALU. -/
theorem binaryHandler_error_cases {alu : Config → Int → Int → Except Fault Int} {s : State} {f : Fault}
    (h : binaryHandler alu s = .error f) :
    resolveAddr s .one .read = .error f ∨ resolveAddr s .two .read = .error f ∨
      resolveAddr s .three .write = .error f ∨
      ∃ a b, readOperand s .one = .ok a ∧ readOperand s .two = .ok b ∧ alu s.cfg a b = .error f := by
  unfold binaryHandler at h
  cases h1 : readOperand s .one with
  | error g =>
    simp only [h1, bind, Except.bind, Except.error.injEq] at h
    exact .inl (readOperand_eq_error_iff.mp (h ▸ h1))
  | ok a =>
    cases h2 : readOperand s .two with
    | error g =>
      simp only [h1, h2, bind, Except.bind, Except.error.injEq] at h
      exact .inr (.inl (readOperand_eq_error_iff.mp (h ▸ h2)))
    | ok b =>
      cases h3 : resolveAddr s .three .write with
      | error g =>
        simp only [h1, h2, h3, bind, Except.bind, Except.error.injEq] at h
        exact .inr (.inr (.inl (h ▸ rfl)))
      | ok d =>
        simp only [h1, h2, h3, bind, Except.bind] at h
        cases h4 : alu s.cfg a b with
        | error g =>
          simp only [h4, Except.error.injEq] at h
          exact .inr (.inr (.inr ⟨a, b, rfl, rfl, h ▸ h4⟩))
        | ok r =>
          simp only [h4, memWrite_natCast (resolveAddr_inMemory h3)] at h
          cases h

/-- Format RR fails in a slot or at a taken negative target. -/
theorem jumpHandler_error_cases {taken : Int → Bool} {s : State} {f : Fault} (h : jumpHandler taken s = .error f) :
    resolveAddr s .one .read = .error f ∨ resolveAddr s .two .read = .error f ∨
      ∃ v, readOperand s .two = .ok v ∧ v < 0 ∧ f = .negativeTarget v := by
  unfold jumpHandler at h
  cases h1 : readOperand s .one with
  | error g =>
    simp only [h1, bind, Except.bind, Except.error.injEq] at h
    exact .inl (readOperand_eq_error_iff.mp (h ▸ h1))
  | ok a =>
    cases h2 : readOperand s .two with
    | error g =>
      simp only [h1, h2, bind, Except.bind, Except.error.injEq] at h
      exact .inr (.inl (readOperand_eq_error_iff.mp (h ▸ h2)))
    | ok v =>
      simp only [h1, h2, bind, Except.bind] at h
      split at h
      · unfold jumpTo at h
        split at h
        · cases h
          exact .inr (.inr ⟨v, rfl, ‹_›, rfl⟩)
        · cases h
      · cases h

/-- IN fails in its slot only. -/
theorem inputHandler_eq_error_iff {s : State} {f : Fault} :
    inputHandler s = .error f ↔ resolveAddr s .one .write = .error f := by
  unfold inputHandler
  cases hd : resolveAddr s .one .write with
  | error g => simp [bind, Except.bind]
  | ok d =>
    cases hq : s.inq with
    | nil => simp [bind, Except.bind, pure, Except.pure]
    | cons v rest =>
      have hw := memWrite_natCast (s := { s with inq := rest }) (n := d) (v := v)
        (show inMemory s.cfg d = true from resolveAddr_inMemory hd)
      simp [bind, Except.bind, hw, pure, Except.pure]

/-- OUT fails in its slot only. -/
theorem outputHandler_eq_error_iff {s : State} {f : Fault} :
    outputHandler s = .error f ↔ resolveAddr s .one .read = .error f := by
  rw [← readOperand_eq_error_iff]
  unfold outputHandler
  cases readOperand s .one <;> simp [bind, Except.bind, pure, Except.pure]

/-- ARB fails in its slot or overflows. -/
theorem rebaseHandler_error_cases {s : State} {f : Fault} (h : rebaseHandler s = .error f) :
    resolveAddr s .one .read = .error f ∨
      ∃ a, readOperand s .one = .ok a ∧ fits s.cfg (s.rb + a) = false ∧ f = .overflow := by
  unfold rebaseHandler at h
  cases h1 : readOperand s .one with
  | error g =>
    simp only [h1, bind, Except.bind, Except.error.injEq] at h
    exact .inl (readOperand_eq_error_iff.mp (h ▸ h1))
  | ok a =>
    simp only [h1, bind, Except.bind] at h
    cases hc : checked s.cfg (s.rb + a) with
    | error g =>
      simp only [hc, Except.error.injEq] at h
      obtain ⟨hf, rfl⟩ := checked_eq_error_iff.mp hc
      exact .inr ⟨a, rfl, hf, h.symm⟩
    | ok n =>
      simp only [hc] at h
      cases h

/-- What an instruction can commit on the state `u` its modes are latched in: one constructor per effect (R127), each with the
instructions that have it and the operands it used. -/
inductive Commits (i : Instr) (u : State) : State → Prop where
  | store (a b : Int) (d : Nat) (r : Int) (hi : i.format = .RRW) (ha : readOperand u .one = .ok a)
      (hb : readOperand u .two = .ok b) (hd : resolveAddr u .three .write = .ok d)
      (hr : (i.opcode = 1 ∧ r = a + b ∧ fits u.cfg r = true) ∨ (i.opcode = 2 ∧ r = a * b ∧ fits u.cfg r = true) ∨
        (i.opcode = 7 ∧ r = boolWord (decide (a < b))) ∨ (i.opcode = 8 ∧ r = boolWord (decide (a = b)))) :
      Commits i u { u with mem := u.mem.set d r, ip := u.ip + 4 }
  | pop (v : Int) (rest : List Int) (d : Nat) (hi : i.opcode = 3) (hd : resolveAddr u .one .write = .ok d)
      (hq : u.inq = v :: rest) : Commits i u { u with inq := rest, mem := u.mem.set d v, ip := u.ip + 2 }
  | pause (d : Nat) (hi : i.opcode = 3) (hd : resolveAddr u .one .write = .ok d) (hq : u.inq = []) :
      Commits i u u.pause
  | emit (a : Int) (hi : i.opcode = 4) (ha : readOperand u .one = .ok a) : Commits i u ((u.emit a).advance 2)
  | jump (a v : Int) (hi : (i.opcode = 5 ∧ a ≠ 0) ∨ (i.opcode = 6 ∧ a = 0)) (ha : readOperand u .one = .ok a)
      (hv : readOperand u .two = .ok v) (h0 : 0 ≤ v) : Commits i u { u with ip := v.toNat }
  | fall (a v : Int) (hi : (i.opcode = 5 ∧ a = 0) ∨ (i.opcode = 6 ∧ a ≠ 0)) (ha : readOperand u .one = .ok a)
      (hv : readOperand u .two = .ok v) : Commits i u (u.advance 3)
  | rebase (a : Int) (hi : i.opcode = 9) (ha : readOperand u .one = .ok a) (hf : fits u.cfg (u.rb + a) = true) :
      Commits i u { u with rb := u.rb + a, ip := u.ip + 2 }
  | halt (hi : i.opcode = 99) : Commits i u u.halt

/-! ### Each arm as its handler (R114) -/

theorem exec_add (m1 m2 m3 : Mode) (s : State) :
    exec (.add m1 m2 m3) s = runHandler ⟨m1, m2, m3⟩ s (binaryHandler fun c a b => checked c (a + b)) := rfl

theorem exec_mul (m1 m2 m3 : Mode) (s : State) :
    exec (.mul m1 m2 m3) s = runHandler ⟨m1, m2, m3⟩ s (binaryHandler fun c a b => checked c (a * b)) := rfl

theorem exec_inp (m1 m2 m3 : Mode) (s : State) :
    exec (.inp m1 m2 m3) s = runHandler ⟨m1, m2, m3⟩ s inputHandler := rfl

theorem exec_out (m1 m2 m3 : Mode) (s : State) :
    exec (.out m1 m2 m3) s = runHandler ⟨m1, m2, m3⟩ s outputHandler := rfl

theorem exec_jt (m1 m2 m3 : Mode) (s : State) :
    exec (.jt m1 m2 m3) s = runHandler ⟨m1, m2, m3⟩ s (jumpHandler fun a => isNonZero a) := rfl

theorem exec_jf (m1 m2 m3 : Mode) (s : State) :
    exec (.jf m1 m2 m3) s = runHandler ⟨m1, m2, m3⟩ s (jumpHandler fun a => !isNonZero a) := rfl

theorem exec_lt (m1 m2 m3 : Mode) (s : State) :
    exec (.lt m1 m2 m3) s = runHandler ⟨m1, m2, m3⟩ s (binaryHandler fun _ a b => .ok (boolWord (decide (a < b)))) := rfl

theorem exec_eq (m1 m2 m3 : Mode) (s : State) :
    exec (.eq m1 m2 m3) s = runHandler ⟨m1, m2, m3⟩ s (binaryHandler fun _ a b => .ok (boolWord (decide (a = b)))) := rfl

theorem exec_arb (m1 m2 m3 : Mode) (s : State) :
    exec (.arb m1 m2 m3) s = runHandler ⟨m1, m2, m3⟩ s rebaseHandler := rfl

theorem exec_halt (m1 m2 m3 : Mode) (s : State) :
    exec (.halt m1 m2 m3) s = runHandler ⟨m1, m2, m3⟩ s haltHandler := rfl

/-- What `exec` can answer: a commit of the instruction, or a fault taken (R127, R290). -/
theorem exec_next_cases {i : Instr} {s t : State} (h : exec i s = .next t) :
    Commits i (s.latch i.modes) t ∨ ∃ f, t = (s.latch i.modes).enterFault (s.mem.get s.ip) f := by
  cases i with
  | add m1 m2 m3 =>
    rw [exec_add] at h
    rcases runHandler_eq_next_iff.mp h with h | ⟨f, -, rfl⟩
    · obtain ⟨a, b, d, r, ha, hb, hd, hr, rfl⟩ := binaryHandler_eq_ok_iff.mp h
      obtain ⟨hf, rfl⟩ := checked_eq_ok_iff.mp hr
      exact .inl (.store a b d _ rfl ha hb hd (.inl ⟨rfl, rfl, hf⟩))
    · exact .inr ⟨f, rfl⟩
  | mul m1 m2 m3 =>
    rw [exec_mul] at h
    rcases runHandler_eq_next_iff.mp h with h | ⟨f, -, rfl⟩
    · obtain ⟨a, b, d, r, ha, hb, hd, hr, rfl⟩ := binaryHandler_eq_ok_iff.mp h
      obtain ⟨hf, rfl⟩ := checked_eq_ok_iff.mp hr
      exact .inl (.store a b d _ rfl ha hb hd (.inr (.inl ⟨rfl, rfl, hf⟩)))
    · exact .inr ⟨f, rfl⟩
  | inp m1 m2 m3 =>
    rw [exec_inp] at h
    rcases runHandler_eq_next_iff.mp h with h | ⟨f, -, rfl⟩
    · obtain ⟨d, hd, ⟨hq, rfl⟩ | ⟨v, rest, hq, rfl⟩⟩ := inputHandler_eq_ok_iff.mp h
      · exact .inl (.pause d rfl hd hq)
      · exact .inl (.pop v rest d rfl hd hq)
    · exact .inr ⟨f, rfl⟩
  | out m1 m2 m3 =>
    rw [exec_out] at h
    rcases runHandler_eq_next_iff.mp h with h | ⟨f, -, rfl⟩
    · obtain ⟨a, ha, rfl⟩ := outputHandler_eq_ok_iff.mp h
      exact .inl (.emit a rfl ha)
    · exact .inr ⟨f, rfl⟩
  | jt m1 m2 m3 =>
    rw [exec_jt] at h
    rcases runHandler_eq_next_iff.mp h with h | ⟨f, -, rfl⟩
    · obtain ⟨a, v, ha, hv, ⟨ht, h0, rfl⟩ | ⟨ht, rfl⟩⟩ := jumpHandler_eq_ok_iff.mp h
      · exact .inl (.jump a v (.inl ⟨rfl, by simpa [isNonZero] using ht⟩) ha hv h0)
      · exact .inl (.fall a v (.inl ⟨rfl, by simpa [isNonZero] using ht⟩) ha hv)
    · exact .inr ⟨f, rfl⟩
  | jf m1 m2 m3 =>
    rw [exec_jf] at h
    rcases runHandler_eq_next_iff.mp h with h | ⟨f, -, rfl⟩
    · obtain ⟨a, v, ha, hv, ⟨ht, h0, rfl⟩ | ⟨ht, rfl⟩⟩ := jumpHandler_eq_ok_iff.mp h
      · exact .inl (.jump a v (.inr ⟨rfl, by simpa [isNonZero] using ht⟩) ha hv h0)
      · exact .inl (.fall a v (.inr ⟨rfl, by simpa [isNonZero] using ht⟩) ha hv)
    · exact .inr ⟨f, rfl⟩
  | lt m1 m2 m3 =>
    rw [exec_lt] at h
    rcases runHandler_eq_next_iff.mp h with h | ⟨f, -, rfl⟩
    · obtain ⟨a, b, d, r, ha, hb, hd, hr, rfl⟩ := binaryHandler_eq_ok_iff.mp h
      cases hr
      exact .inl (.store a b d _ rfl ha hb hd (.inr (.inr (.inl ⟨rfl, rfl⟩))))
    · exact .inr ⟨f, rfl⟩
  | eq m1 m2 m3 =>
    rw [exec_eq] at h
    rcases runHandler_eq_next_iff.mp h with h | ⟨f, -, rfl⟩
    · obtain ⟨a, b, d, r, ha, hb, hd, hr, rfl⟩ := binaryHandler_eq_ok_iff.mp h
      cases hr
      exact .inl (.store a b d _ rfl ha hb hd (.inr (.inr (.inr ⟨rfl, rfl⟩))))
    · exact .inr ⟨f, rfl⟩
  | arb m1 m2 m3 =>
    rw [exec_arb] at h
    rcases runHandler_eq_next_iff.mp h with h | ⟨f, -, rfl⟩
    · obtain ⟨a, ha, hf, rfl⟩ := rebaseHandler_eq_ok_iff.mp h
      exact .inl (.rebase a rfl ha hf)
    · exact .inr ⟨f, rfl⟩
  | halt m1 m2 m3 =>
    rw [exec_halt] at h
    rcases runHandler_eq_next_iff.mp h with h | ⟨f, -, rfl⟩
    · cases h
      exact .inl (.halt rfl)
    · exact .inr ⟨f, rfl⟩

/-- Every handler ends in a next state. -/
theorem runHandler_is_next (m : Modes) (s : State) (h : State → Except Fault State) :
    ∃ t, runHandler m s h = .next t := by
  unfold runHandler
  split <;> exact ⟨_, rfl⟩

/-- Every instruction ends in a next state. -/
theorem exec_is_next (i : Instr) (s : State) : ∃ t, exec i s = .next t := by
  cases i <;> simp only [exec_add, exec_mul, exec_inp, exec_out, exec_jt, exec_jf, exec_lt, exec_eq, exec_arb, exec_halt] <;>
    exact runHandler_is_next _ _ _

/-- What fetch and decode can answer (R111 to R113). -/
theorem fetchInstr_cases (s : State) :
    (∃ i, fetchInstr s = .ok i ∧ inMemory s.cfg s.ip = true ∧ decodeWord (s.mem.get s.ip) = .ok i) ∨
    (∃ r, fetchInstr s = .error (s.enterFault (s.mem.get s.ip) (faultOfReject r)) ∧ inMemory s.cfg s.ip = true ∧
      decodeWord (s.mem.get s.ip) = .error r) ∨
    (fetchInstr s = .error (s.enterFault 0 (.capacityExceeded s.ip)) ∧ inMemory s.cfg s.ip = false) := by
  unfold fetchInstr
  cases hm : inMemory s.cfg s.ip with
  | false =>
    have : memRead s (s.ip : Int) = .error (.capacityExceeded s.ip) :=
      memRead_eq_error_iff.mpr (checkAddr_eq_error_iff.mpr (.inr ⟨by omega, by simpa using hm, rfl⟩))
    exact .inr (.inr ⟨by simp [this], rfl⟩)
  | true =>
    rw [memRead_natCast hm]
    cases hd : decodeWord (s.mem.get s.ip) with
    | error r => exact .inr (.inl ⟨r, by simp [hd], rfl, rfl⟩)
    | ok i => exact .inl ⟨i, by simp [hd], rfl, rfl⟩

/-- A Machine that is not Running executes nothing (R130). -/
theorem step_of_not_running {s : State} (h : s.state ≠ .running) : step s = .next s := by
  unfold step
  cases hs : s.state <;> simp_all

/-- The step of a Running Machine. -/
theorem step_of_running {s : State} (h : s.state = .running) :
    step s = match fetchInstr s with
      | .ok i => exec i s
      | .error t => .next t := by
  cases s
  cases h
  rfl

/-- What a step can do: nothing outside Running; otherwise a commit of the instruction decoded at `ip`, or one fault taken, with the
word at `ip` or 0 recorded. -/
theorem step_next_cases {s t : State} (h : step s = .next t) :
    (s.state ≠ .running ∧ t = s) ∨
    (s.state = .running ∧ ∃ i, fetchInstr s = .ok i ∧ decodeWord (s.mem.get s.ip) = .ok i ∧
      inMemory s.cfg s.ip = true ∧ Commits i (s.latch i.modes) t) ∨
    (s.state = .running ∧ ∃ m w f, (w = s.mem.get s.ip ∧ inMemory s.cfg s.ip = true ∨
      w = 0 ∧ inMemory s.cfg s.ip = false) ∧ t = (s.latch m).enterFault w f) := by
  by_cases hs : s.state = .running
  · rw [step_of_running hs] at h
    rcases fetchInstr_cases s with ⟨i, hi, hm, hd⟩ | ⟨r, hi, hm, -⟩ | ⟨hi, hm⟩
    · rw [hi] at h
      rcases exec_next_cases h with hc | ⟨f, rfl⟩
      · exact .inr (.inl ⟨hs, i, hi, hd, hm, hc⟩)
      · exact .inr (.inr ⟨hs, i.modes, _, f, .inl ⟨rfl, hm⟩, rfl⟩)
    · rw [hi] at h
      cases h
      exact .inr (.inr ⟨hs, s.modes, _, _, .inl ⟨rfl, hm⟩, rfl⟩)
    · rw [hi] at h
      cases h
      exact .inr (.inr ⟨hs, s.modes, _, _, .inr ⟨rfl, hm⟩, rfl⟩)
  · rw [step_of_not_running hs] at h
    cases h
    exact .inl ⟨hs, rfl⟩

end Sys2Proof.Machine
end

