-- ==== Sys2Proof/Laws/PerInstr.lean ====
section
/-! SUPPORT. The family `LegalWord`, one lemma per instruction: its word lies in [1, 22299] (spec R81), its low two digits are its
opcode, and its length is at most four cells (R82). -/

namespace Sys2Proof.Laws.LegalWord

/-- An instruction word is one the spec calls legal, and names its opcode (R81, R82). -/
def Statement (i : Instr) : Prop :=
  1 ≤ encode i ∧ encode i ≤ 22299 ∧ encode i % 100 = (i.opcode : Int) ∧ 1 ≤ i.len ∧ i.len ≤ 4

theorem add (m1 m2 m3 : Mode) : Statement (.add m1 m2 m3) := by
  unfold Statement
  cases m1 <;> cases m2 <;> cases m3 <;> decide

theorem mul (m1 m2 m3 : Mode) : Statement (.mul m1 m2 m3) := by
  unfold Statement
  cases m1 <;> cases m2 <;> cases m3 <;> decide

theorem inp (m1 m2 m3 : Mode) : Statement (.inp m1 m2 m3) := by
  unfold Statement
  cases m1 <;> cases m2 <;> cases m3 <;> decide

theorem out (m1 m2 m3 : Mode) : Statement (.out m1 m2 m3) := by
  unfold Statement
  cases m1 <;> cases m2 <;> cases m3 <;> decide

theorem jt (m1 m2 m3 : Mode) : Statement (.jt m1 m2 m3) := by
  unfold Statement
  cases m1 <;> cases m2 <;> cases m3 <;> decide

theorem jf (m1 m2 m3 : Mode) : Statement (.jf m1 m2 m3) := by
  unfold Statement
  cases m1 <;> cases m2 <;> cases m3 <;> decide

theorem lt (m1 m2 m3 : Mode) : Statement (.lt m1 m2 m3) := by
  unfold Statement
  cases m1 <;> cases m2 <;> cases m3 <;> decide

theorem eq (m1 m2 m3 : Mode) : Statement (.eq m1 m2 m3) := by
  unfold Statement
  cases m1 <;> cases m2 <;> cases m3 <;> decide

theorem arb (m1 m2 m3 : Mode) : Statement (.arb m1 m2 m3) := by
  unfold Statement
  cases m1 <;> cases m2 <;> cases m3 <;> decide

theorem halt (m1 m2 m3 : Mode) : Statement (.halt m1 m2 m3) := by
  unfold Statement
  cases m1 <;> cases m2 <;> cases m3 <;> decide

end Sys2Proof.Laws.LegalWord
end

