-- ==== Sys2Proof/Tests/Slice0.lean ====
section
/-! SUPPORT. Tests of the model, and a witness for every statement that has hypotheses. Every expected result is the spec's: a word
written out from R81 and R83, an example of an instruction's rule, or a row of 95_test_vectors.md, named in the comment. -/

open Sys2Proof Sys2Proof.Machine Sys2Proof.Claims

namespace Sys2Proof.Tests

/-! ### States -/

/-- The start state of a test vector: the reset state with the program loaded, default parameters. -/
def loaded (p : List Int) : State := State.resetWith Config.standard (Memory.ofProgram p)

/-- The same with input waiting. -/
def fed (p q : List Int) : State := { loaded p with inq := q }

/-- The same with a memory limit. -/
def limited (l : Nat) (p : List Int) : State := State.resetWith ⟨some 128, some l⟩ (Memory.ofProgram p)

/-- The same with unbounded words. -/
def unbounded (p : List Int) : State := State.resetWith ⟨none, none⟩ (Memory.ofProgram p)

/-- The largest and the least word of the default width, as 95_test_vectors.md writes them. -/
def wmax : Int := 170141183460469231731687303715884105727
def wmin : Int := -170141183460469231731687303715884105728

/-! ### Well-formedness: an ill-formed instruction for each check -/

theorem test_wf_refuses_add_immediate_write : (Instr.add .position .position .immediate).wellFormed = false := by decide
theorem test_wf_refuses_mul_immediate_write : (Instr.mul .relative .immediate .immediate).wellFormed = false := by decide
theorem test_wf_refuses_in_immediate_write : (Instr.inp .immediate .position .position).wellFormed = false := by decide
theorem test_wf_refuses_lt_immediate_write : (Instr.lt .immediate .immediate .immediate).wellFormed = false := by decide
theorem test_wf_refuses_eq_immediate_write : (Instr.eq .position .relative .immediate).wellFormed = false := by decide
theorem test_wf_accepts_immediate_reads : (Instr.out .immediate .position .position).wellFormed = true := by decide

/-- R92: words with a digit for a slot the format lacks are not canonical. -/
theorem test_canonical_refuses_absent_slots :
    (Instr.inp .position .relative .position).canonical = false ∧
    (Instr.out .immediate .position .immediate).canonical = false ∧
    (Instr.jt .position .position .relative).canonical = false ∧
    (Instr.jf .position .position .immediate).canonical = false ∧
    (Instr.arb .immediate .immediate .position).canonical = false ∧
    (Instr.halt .relative .position .position).canonical = false := by decide

/-! ### Decoding: a word of every instruction, written out by R81 as `10000*m3 + 1000*m2 + 100*m1 + op` -/

theorem test_decode_add : decodeWord 21001 = .ok (.add .position .immediate .relative) := rfl
theorem test_decode_mul : decodeWord 1202 = .ok (.mul .relative .immediate .position) := rfl
theorem test_decode_in : decodeWord 3 = .ok (.inp .position .position .position) := rfl
theorem test_decode_out : decodeWord 104 = .ok (.out .immediate .position .position) := rfl
theorem test_decode_jt : decodeWord 2105 = .ok (.jt .immediate .relative .position) := rfl
theorem test_decode_jf : decodeWord 1006 = .ok (.jf .position .immediate .position) := rfl
theorem test_decode_lt : decodeWord 1107 = .ok (.lt .immediate .immediate .position) := rfl
theorem test_decode_eq : decodeWord 20108 = .ok (.eq .immediate .position .relative) := rfl
theorem test_decode_arb : decodeWord 209 = .ok (.arb .relative .position .position) := rfl
theorem test_decode_halt : decodeWord 22299 = .ok (.halt .relative .relative .relative) := rfl

/-- T2 to T7, and the words of R88, which decode. -/
theorem test_decode_rejects :
    decodeWord 0 = .error .invalidOpcode ∧ decodeWord (-1) = .error .invalidOpcode ∧
    decodeWord 98 = .error .invalidOpcode ∧ decodeWord 310 = .error .invalidOpcode ∧
    decodeWord 399 = .error .invalidMode ∧ decodeWord 100099 = .error .invalidMode ∧
    decodeWord 30004 = .error .invalidMode ∧ decodeWord 103 = .ok (.inp .immediate .position .position) :=
  ⟨rfl, rfl, rfl, rfl, rfl, rfl, rfl, rfl⟩

/-! ### One step: each instruction -/

/-- V1, first step. -/
theorem test_add_position : ∃ t, step (loaded [1, 9, 10, 3, 2, 3, 11, 0, 99, 30, 40, 50]) = .next t ∧
    t.mem.get 3 = 70 ∧ t.ip = 4 ∧ t.state = .running := ⟨_, rfl, by decide⟩

/-- T18. -/
theorem test_mul_signed : ∃ t, step (loaded [1102, -3, 4, 5, 99, 0]) = .next t ∧ t.mem.get 5 = -12 ∧ t.ip = 4 :=
  ⟨_, rfl, by decide⟩

/-- T20: -WMIN is no word. -/
theorem test_mul_overflow : ∃ t, step (loaded [1102, wmin, -1, 5, 99, 0]) = .next t ∧
    t.fault = ⟨.overflow, .none, 0, 1102, 0⟩ := ⟨_, rfl, by decide⟩

/-- T21, first step: the destination is the instruction's own word. -/
theorem test_in_takes_front : ∃ t, step (fed [3, 0, 4, 0, 99] [42, 7]) = .next t ∧
    t.mem.get 0 = 42 ∧ t.inq = [7] ∧ t.ip = 2 := ⟨_, rfl, by decide⟩

/-- T22. -/
theorem test_in_pauses : ∃ t, step (loaded [3, 0, 4, 0, 99]) = .next t ∧
    t.state = .paused ∧ t.ip = 0 ∧ t.mem.get 0 = 3 ∧ statusWord t = 1 := ⟨_, rfl, by decide⟩

/-- V4, second step: `OUT [rb-1]` with `rb = 1` outputs M[0] = 109. -/
theorem test_out_relative : ∃ t, step { loaded [109, 1, 204, -1] with ip := 2, rb := 1 } = .next t ∧
    t.outlog = [109] ∧ t.ip = 4 := ⟨_, rfl, by decide⟩

/-- T28. -/
theorem test_out_negative_address : ∃ t, step (loaded [4, -1, 99]) = .next t ∧
    t.fault = ⟨.addressError, .negativeAddress, 0, 4, -1⟩ ∧ t.outlog = [] := ⟨_, rfl, by decide⟩

/-- R180's example. -/
theorem test_jt_taken : ∃ t, step (loaded [1105, 1, 7]) = .next t ∧ t.ip = 7 := ⟨_, rfl, by decide⟩

/-- T31. -/
theorem test_jt_negative_target : ∃ t, step (loaded [1105, 1, -1]) = .next t ∧
    t.fault = ⟨.addressError, .negativeTarget, 0, 1105, -1⟩ ∧ t.ip = 0 ∧ statusWord t = 107 := ⟨_, rfl, by decide⟩

/-- T36. -/
theorem test_jf_not_taken : ∃ t, step (loaded [1106, -3, 7, 99]) = .next t ∧ t.ip = 3 := ⟨_, rfl, by decide⟩

/-- T37. -/
theorem test_jf_taken : ∃ t, step (loaded [1106, 0, 4, 0, 99]) = .next t ∧ t.ip = 4 := ⟨_, rfl, by decide⟩

/-- T38: signed. -/
theorem test_lt_signed : ∃ t, step (loaded [1107, -1, 0, 5, 99, 7]) = .next t ∧ t.mem.get 5 = 1 ∧ t.ip = 4 :=
  ⟨_, rfl, by decide⟩

/-- T39: strict. -/
theorem test_lt_strict : ∃ t, step (loaded [1107, 5, 5, 5, 99, 9]) = .next t ∧ t.mem.get 5 = 0 := ⟨_, rfl, by decide⟩

/-- T41. -/
theorem test_eq_equal : ∃ t, step (loaded [1108, 1, 1, 5, 99, 7]) = .next t ∧ t.mem.get 5 = 1 := ⟨_, rfl, by decide⟩

/-- T42. -/
theorem test_eq_unequal : ∃ t, step (loaded [1108, 1, -1, 5, 99, 7]) = .next t ∧ t.mem.get 5 = 0 := ⟨_, rfl, by decide⟩

/-- T43, first step: a negative base is legal. -/
theorem test_arb_negative : ∃ t, step (loaded [109, -1, 204, 0, 99]) = .next t ∧ t.rb = -1 ∧ t.ip = 2 :=
  ⟨_, rfl, by decide⟩

/-- T44, second step: the faulting ARB leaves `rb`. -/
theorem test_arb_overflow : ∃ t, step { loaded [109, -1, 109, wmin, 99] with ip := 2, rb := -1 } = .next t ∧
    t.fault = ⟨.overflow, .none, 2, 109, 0⟩ ∧ t.rb = -1 := ⟨_, rfl, by decide⟩

/-- T9: the digits of absent slots are ignored; `ip` stays. -/
theorem test_halt : ∃ t, step (loaded [22299]) = .next t ∧ t.state = .halted ∧ t.ip = 0 ∧ statusWord t = 2 :=
  ⟨_, rfl, by decide⟩

/-- T15: an immediate write slot faults with its number. -/
theorem test_add_immediate_write : ∃ t, step (loaded [11101, 1, 1, 0, 99]) = .next t ∧
    t.fault = ⟨.addressError, .immediateWrite, 0, 11101, 3⟩ ∧ t.mem.get 0 = 11101 ∧ statusWord t = 75 :=
  ⟨_, rfl, by decide⟩

/-- T35, second step: the fetch at the limit records the word 0. -/
theorem test_fetch_at_limit : ∃ t, step { limited 8 [1105, 1, 8] with ip := 8 } = .next t ∧
    t.fault = ⟨.capacityExceeded, .none, 8, 0, 8⟩ ∧ statusWord t = 23 := ⟨_, rfl, by decide⟩

/-! ### Host operations, text, and the host's table words -/

/-- T63, T61, T10: programs construct refuses and the empty one. -/
theorem test_construct :
    construct ⟨some 128, some 4⟩ [1, 0, 0, 0, 99] = .error .hostCapacity ∧
    construct Config.standard [1, wmax + 1] = .error .valueRange ∧
    construct Config.standard [] = .ok State.reset := by
  refine ⟨rfl, rfl, rfl⟩

/-- T52, T53, T54: what the host's memory and queue operations refuse. -/
theorem test_host_errors :
    inject (loaded [99]) (-1) 5 = .error .hostAddressError ∧ hostRead (loaded [99]) (-3) = .error .hostAddressError ∧
    inject (limited 8 [99]) 8 1 = .error .hostCapacity ∧ hostRead (limited 8 [99]) 7 = .ok 0 ∧
    inject (loaded [99]) 0 (wmax + 1) = .error .valueRange ∧
    extendInput (loaded [99]) [1, wmin - 1] = .error .valueRange := ⟨rfl, rfl, rfl, rfl, rfl, rfl⟩

/-- T48, T50: the queues from the host's side. -/
theorem test_host_queues :
    dumpOutput (loaded [99]) = .error .emptyOutput ∧ lastOutput (loaded [99]) = .error .emptyOutput ∧
    (drainOutputInto { loaded [99] with outlog := [7, 8] } (fed [3, 0, 99] [1])).2.inq = [1, 7, 8] := ⟨rfl, rfl, rfl⟩

/-- R257: signs, white space, the empty text, and two texts that are no program. -/
theorem test_program_text :
    readProgram " 1,-9 ,\n10\n".toList = some [1, -9, 10] ∧ readProgram " \n".toList = some [] ∧
    readProgram "1,,2".toList = none ∧ readProgram "1,x".toList = none := by decide

/-- R97: what the spec's words disassemble to. -/
theorem test_disassembly :
    (disassembleAt (Memory.ofProgram [204, -1]) 0).text = "OUT [rb-1]".toList ∧
    (disassembleAt (Memory.ofProgram [1, 9, 10, 3]) 0).text = "ADD [9], [10], [3]".toList ∧
    (disassembleAt (Memory.ofProgram [98]) 0).text = ".word 98".toList := by decide

/-- P4, and a jump to a label with the pseudo-instruction of R96. -/
theorem test_assembly :
    assembleText "ADD 1, 98, [4] ; P4\n.word 0".toList = some [1101, 1, 98, 4, 0] ∧
    assembleText "a: jmp a".toList = some [1105, 1, 0] ∧ assembleText "IN 5".toList = none := by decide

/-- A table word is laid out in 128-bit memory words, and the next step runs it: `OUT 7` in two of them. -/
theorem test_table_words :
    decodeTableWord 8 4 = some (.out .position .position .position) ∧ decodeTableWord 8 98 = none ∧
    ∃ t, step (State.reset.withFetchWord 256 (104 + 7 * 2 ^ 128)) = .next t ∧ t.outlog = [7] ∧ t.ip = 2 :=
  ⟨rfl, rfl, _, rfl, by decide⟩

/-! ### Witnesses: states and operands that meet every hypothesis of a statement, clause by clause, at boundary values -/

/-- The modes of the words used below. -/
def ppp : Modes := ⟨.position, .position, .position⟩
def iip : Modes := ⟨.immediate, .immediate, .position⟩
def iii : Modes := ⟨.immediate, .immediate, .immediate⟩

/-- A Machine with a limit of `l` cells, a latch and a base, for the resolver. -/
def resolving (l : Nat) (p : List Int) (m : Modes) (rb : Int) : State := { limited l p with modes := m, rb := rb }

theorem witness_DecodeEncodeInverse :
    decodeWord 1 = .ok (.add .position .position .position) ∧ decodeWord 22299 = .ok (.halt .relative .relative .relative) :=
  ⟨rfl, rfl⟩

theorem witness_IllegalOpcodeFaults : ∀ w ∈ ([-1, 0, 10, 98, 100] : List Int),
    (loaded [w]).state = .running ∧ inMemory (loaded [w]).cfg (loaded [w]).ip = true ∧
    decodeWord ((loaded [w]).mem.get (loaded [w]).ip) matches .error .invalidOpcode := by decide

theorem witness_IllegalModeFaults : ∀ w ∈ ([301, 3001, 30001, 99999, 100001] : List Int),
    (loaded [w]).state = .running ∧ inMemory (loaded [w]).cfg (loaded [w]).ip = true ∧
    decodeWord ((loaded [w]).mem.get (loaded [w]).ip) matches .error .invalidMode := by decide

theorem witness_UnusedModeDigitsIgnored :
    (Instr.out .immediate .position .position).opcode = (Instr.out .immediate .relative .immediate).opcode ∧
    (∀ k : Slot, k.num < (Instr.out .immediate .position .position).len →
      (Instr.out .immediate .position .position).modes.of k = (Instr.out .immediate .relative .immediate).modes.of k) ∧
    ∃ t, exec (.out .immediate .position .position) (loaded [104, 7]) = .next t := by
  refine ⟨rfl, fun k hk => ?_, _, rfl⟩
  cases k with
  | one => rfl
  | two => exact absurd hk (by decide)
  | three => exact absurd hk (by decide)

theorem witness_StepRunsDecodedInstruction :
    (limited 1 [99]).state = .running ∧ inMemory (limited 1 [99]).cfg (limited 1 [99]).ip = true ∧
    decodeWord ((limited 1 [99]).mem.get (limited 1 [99]).ip) = .ok (.halt .position .position .position) := ⟨rfl, rfl, rfl⟩

theorem witness_RunOnStoppedMachineDoesNothing : { fed [3, 0] [1] with state := .paused }.state ≠ RunState.running := by decide

theorem witness_FetchOutsideProgramFaults :
    ((limited 0 []).state = .running ∧ inMemory (limited 0 []).cfg (limited 0 []).ip = false) ∧
    (limited 1 []).state = .running ∧ inMemory (limited 1 []).cfg (limited 1 []).ip = true ∧
    (limited 1 []).mem.get (limited 1 []).ip = 0 := by decide

theorem witness_MemReadAnswers :
    (-1 : Int) < 0 ∧ ((0 : Int) ≤ 8 ∧ inMemory (limited 8 [1]).cfg (8 : Int).toNat = false) ∧
    ((0 : Int) ≤ 7 ∧ inMemory (limited 8 [1]).cfg (7 : Int).toNat = true) ∧
    (0 : Int) ≤ 0 ∧ inMemory (limited 8 [1]).cfg (0 : Int).toNat = true := by decide

theorem witness_MemWriteAnswers : (limited 8 [1, 0, 2]).mem.wf := by decide

theorem witness_CanonicalMemoryIsUnique :
    (Memory.ofProgram [1, 0, 3]).wf ∧ ((Memory.empty.set 2 3).set 0 1).wf ∧
    ∀ a : Nat, (Memory.ofProgram [1, 0, 3]).get a = ((Memory.empty.set 2 3).set 0 1).get a :=
  ⟨by decide, by decide, fun _ => rfl⟩

/-- The four clauses: an immediate write, an immediate read in the last cell, a parameter at the limit, and resolved addresses -1,
the limit and the last cell, in position and in relative mode. -/
theorem witness_ResolverAnswers :
    ((resolving 4 [] iii 0).modes.of .three = .immediate ∧ Access.write = .write) ∧
    ((resolving 4 [] iii 0).modes.of .three = .immediate ∧ Access.read = .read ∧
      inMemory (resolving 4 [] iii 0).cfg ((resolving 4 [] iii 0).ip + Slot.three.num) = true) ∧
    (((resolving 3 [] ppp 0).modes.of .three = .immediate → Access.write = .read) ∧
      inMemory (resolving 3 [] ppp 0).cfg ((resolving 3 [] ppp 0).ip + Slot.three.num) = false) ∧
    (∀ a ∈ ([-1, 2, 1] : List Int), (resolving 2 [1, a] ppp 0).modes.of .one = .position ∧
      a = (resolving 2 [1, a] ppp 0).mem.get ((resolving 2 [1, a] ppp 0).ip + Slot.one.num)) ∧
    (∀ a ∈ ([-1, 2, 1] : List Int), (resolving 2 [201, a - 5] ⟨.relative, .position, .position⟩ 5).modes.of .one = .relative ∧
      a = (resolving 2 [201, a - 5] ⟨.relative, .position, .position⟩ 5).rb +
        (resolving 2 [201, a - 5] ⟨.relative, .position, .position⟩ 5).mem.get
          ((resolving 2 [201, a - 5] ⟨.relative, .position, .position⟩ 5).ip + Slot.one.num)) ∧
    inMemory (resolving 2 [] ppp 0).cfg ((resolving 2 [] ppp 0).ip + Slot.one.num) = true ∧
    inMemory (resolving 2 [] ppp 0).cfg (2 : Int).toNat = false ∧ inMemory (resolving 2 [] ppp 0).cfg (1 : Int).toNat = true := by
  decide

theorem witness_OperandIsWordAtResolvedAddress :
    resolveAddr (resolving 2 [4, 1] ppp 0) .one .read = .ok 1 ∧
    resolveAddr (resolving 2 [4, 2] ppp 0) .one .read = .error (.capacityExceeded 2) ∧
    (resolving 2 [104, 9] iip 0).modes.of .one = .immediate ∧
    inMemory (resolving 2 [104, 9] iip 0).cfg ((resolving 2 [104, 9] iip 0).ip + Slot.one.num) = true := ⟨rfl, rfl, rfl, rfl⟩

theorem witness_CheckedAnswers :
    (⟨none, none⟩ : Config).wordBits = none ∧ Config.standard.wordBits = some 128 ∧
    (wordMin 128 ≤ wmin ∧ wmin ≤ wordMax 128) ∧ (wordMin 128 ≤ wmax ∧ wmax ≤ wordMax 128) ∧
    (wmin - 1 < wordMin 128 ∨ wordMax 128 < wmin - 1) ∧ (wmax + 1 < wordMin 128 ∨ wordMax 128 < wmax + 1) := by decide

theorem witness_AddOutcomes :
    readOperand ((loaded [1, -1]).latch ppp) .one = .error (.negativeAddress (-1)) ∧
    (readOperand ((loaded [1, 0, -1]).latch ppp) .one = .ok 1 ∧
      readOperand ((loaded [1, 0, -1]).latch ppp) .two = .error (.negativeAddress (-1))) ∧
    (readOperand ((loaded [11101, 1, 1, 0]).latch iii) .one = .ok 1 ∧
      readOperand ((loaded [11101, 1, 1, 0]).latch iii) .two = .ok 1 ∧
      resolveAddr ((loaded [11101, 1, 1, 0]).latch iii) .three .write = .error (.immediateWrite .three)) ∧
    (readOperand ((loaded [1101, wmax, 1, 5]).latch iip) .one = .ok wmax ∧
      readOperand ((loaded [1101, wmax, 1, 5]).latch iip) .two = .ok 1 ∧
      resolveAddr ((loaded [1101, wmax, 1, 5]).latch iip) .three .write = .ok 5 ∧
      fits (loaded [1101, wmax, 1, 5]).cfg (wmax + 1) = false) ∧
    readOperand ((loaded [1101, wmax, 0, 5]).latch iip) .one = .ok wmax ∧
    readOperand ((loaded [1101, wmax, 0, 5]).latch iip) .two = .ok 0 ∧
    resolveAddr ((loaded [1101, wmax, 0, 5]).latch iip) .three .write = .ok 5 ∧
    fits (loaded [1101, wmax, 0, 5]).cfg (wmax + 0) = true := by
  refine ⟨rfl, ⟨rfl, rfl⟩, ⟨rfl, rfl, rfl⟩, ⟨rfl, rfl, rfl, by decide⟩, rfl, rfl, rfl, by decide⟩

theorem witness_MulOutcomes :
    readOperand ((loaded [2, -1]).latch ppp) .one = .error (.negativeAddress (-1)) ∧
    (readOperand ((loaded [2, 0, -1]).latch ppp) .one = .ok 2 ∧
      readOperand ((loaded [2, 0, -1]).latch ppp) .two = .error (.negativeAddress (-1))) ∧
    (readOperand ((loaded [11102, 1, 1, 0]).latch iii) .one = .ok 1 ∧
      readOperand ((loaded [11102, 1, 1, 0]).latch iii) .two = .ok 1 ∧
      resolveAddr ((loaded [11102, 1, 1, 0]).latch iii) .three .write = .error (.immediateWrite .three)) ∧
    (readOperand ((loaded [1102, wmin, -1, 5]).latch iip) .one = .ok wmin ∧
      readOperand ((loaded [1102, wmin, -1, 5]).latch iip) .two = .ok (-1) ∧
      resolveAddr ((loaded [1102, wmin, -1, 5]).latch iip) .three .write = .ok 5 ∧
      fits (loaded [1102, wmin, -1, 5]).cfg (wmin * -1) = false) ∧
    readOperand ((loaded [1102, wmin, 1, 5]).latch iip) .one = .ok wmin ∧
    readOperand ((loaded [1102, wmin, 1, 5]).latch iip) .two = .ok 1 ∧
    resolveAddr ((loaded [1102, wmin, 1, 5]).latch iip) .three .write = .ok 5 ∧
    fits (loaded [1102, wmin, 1, 5]).cfg (wmin * 1) = true := by
  refine ⟨rfl, ⟨rfl, rfl⟩, ⟨rfl, rfl, rfl⟩, ⟨rfl, rfl, rfl, by decide⟩, rfl, rfl, rfl, by decide⟩

theorem witness_InOutcomes :
    resolveAddr ((loaded [103, 0]).latch iii) .one .write = .error (.immediateWrite .one) ∧
    (resolveAddr ((loaded [3, 0]).latch ppp) .one .write = .ok 0 ∧ (loaded [3, 0]).inq = []) ∧
    resolveAddr ((fed [3, 0] [42]).latch ppp) .one .write = .ok 0 ∧ (fed [3, 0] [42]).inq = 42 :: [] :=
  ⟨rfl, ⟨rfl, rfl⟩, rfl, rfl⟩

theorem witness_OutOutcomes :
    readOperand ((loaded [4, -1]).latch ppp) .one = .error (.negativeAddress (-1)) ∧
    readOperand ((loaded [4, 500]).latch ppp) .one = .ok 0 := ⟨rfl, rfl⟩

theorem witness_JumpIfTrueOutcomes :
    readOperand ((loaded [5, -1]).latch ppp) .one = .error (.negativeAddress (-1)) ∧
    (readOperand ((loaded [5, 0, -1]).latch ppp) .one = .ok 5 ∧
      readOperand ((loaded [5, 0, -1]).latch ppp) .two = .error (.negativeAddress (-1))) ∧
    (readOperand ((loaded [1105, -1, -1]).latch iip) .one = .ok (-1) ∧
      readOperand ((loaded [1105, -1, -1]).latch iip) .two = .ok (-1)) ∧
    (readOperand ((loaded [1105, 1, 0]).latch iip) .one = .ok 1 ∧
      readOperand ((loaded [1105, 1, 0]).latch iip) .two = .ok 0) ∧
    readOperand ((loaded [1105, 0, -1]).latch iip) .one = .ok 0 ∧
    readOperand ((loaded [1105, 0, -1]).latch iip) .two = .ok (-1) := ⟨rfl, ⟨rfl, rfl⟩, ⟨rfl, rfl⟩, ⟨rfl, rfl⟩, rfl, rfl⟩

theorem witness_JumpIfFalseOutcomes :
    readOperand ((loaded [6, -1]).latch ppp) .one = .error (.negativeAddress (-1)) ∧
    (readOperand ((loaded [6, 0, -1]).latch ppp) .one = .ok 6 ∧
      readOperand ((loaded [6, 0, -1]).latch ppp) .two = .error (.negativeAddress (-1))) ∧
    (readOperand ((loaded [1106, 0, -1]).latch iip) .one = .ok 0 ∧
      readOperand ((loaded [1106, 0, -1]).latch iip) .two = .ok (-1)) ∧
    (readOperand ((loaded [1106, 0, 0]).latch iip) .one = .ok 0 ∧
      readOperand ((loaded [1106, 0, 0]).latch iip) .two = .ok 0) ∧
    readOperand ((loaded [1106, -1, -1]).latch iip) .one = .ok (-1) ∧
    readOperand ((loaded [1106, -1, -1]).latch iip) .two = .ok (-1) := ⟨rfl, ⟨rfl, rfl⟩, ⟨rfl, rfl⟩, ⟨rfl, rfl⟩, rfl, rfl⟩

theorem witness_LessThanOutcomes :
    readOperand ((loaded [7, -1]).latch ppp) .one = .error (.negativeAddress (-1)) ∧
    (readOperand ((loaded [7, 0, -1]).latch ppp) .one = .ok 7 ∧
      readOperand ((loaded [7, 0, -1]).latch ppp) .two = .error (.negativeAddress (-1))) ∧
    (readOperand ((loaded [11107, 1, 1, 0]).latch iii) .one = .ok 1 ∧
      readOperand ((loaded [11107, 1, 1, 0]).latch iii) .two = .ok 1 ∧
      resolveAddr ((loaded [11107, 1, 1, 0]).latch iii) .three .write = .error (.immediateWrite .three)) ∧
    readOperand ((loaded [1107, wmin, wmax, 5]).latch iip) .one = .ok wmin ∧
    readOperand ((loaded [1107, wmin, wmax, 5]).latch iip) .two = .ok wmax ∧
    resolveAddr ((loaded [1107, wmin, wmax, 5]).latch iip) .three .write = .ok 5 :=
  ⟨rfl, ⟨rfl, rfl⟩, ⟨rfl, rfl, rfl⟩, rfl, rfl, rfl⟩

theorem witness_EqualsOutcomes :
    readOperand ((loaded [8, -1]).latch ppp) .one = .error (.negativeAddress (-1)) ∧
    (readOperand ((loaded [8, 0, -1]).latch ppp) .one = .ok 8 ∧
      readOperand ((loaded [8, 0, -1]).latch ppp) .two = .error (.negativeAddress (-1))) ∧
    (readOperand ((loaded [11108, 1, 1, 0]).latch iii) .one = .ok 1 ∧
      readOperand ((loaded [11108, 1, 1, 0]).latch iii) .two = .ok 1 ∧
      resolveAddr ((loaded [11108, 1, 1, 0]).latch iii) .three .write = .error (.immediateWrite .three)) ∧
    readOperand ((loaded [1108, 1, -1, 5]).latch iip) .one = .ok 1 ∧
    readOperand ((loaded [1108, 1, -1, 5]).latch iip) .two = .ok (-1) ∧
    resolveAddr ((loaded [1108, 1, -1, 5]).latch iip) .three .write = .ok 5 :=
  ⟨rfl, ⟨rfl, rfl⟩, ⟨rfl, rfl, rfl⟩, rfl, rfl, rfl⟩

theorem witness_AdjustBaseOutcomes :
    readOperand ((loaded [9, -1]).latch ppp) .one = .error (.negativeAddress (-1)) ∧
    (readOperand (State.latch { loaded [109, wmin] with rb := -1 } iip) .one = .ok wmin ∧
      fits { loaded [109, wmin] with rb := -1 }.cfg (-1 + wmin) = false) ∧
    readOperand ((loaded [109, wmin]).latch iip) .one = .ok wmin ∧ fits (loaded [109, wmin]).cfg (0 + wmin) = true := by
  refine ⟨rfl, ⟨rfl, by decide⟩, rfl, by decide⟩

theorem witness_FaultCommitsNothing :
    (loaded [1101, wmax, 1, 5]).state = .running ∧
    ∃ t, step (loaded [1101, wmax, 1, 5]) = .next t ∧ t.state = .faulted := ⟨rfl, _, rfl, rfl⟩

/-- A legal Machine whose next address is `2*WMIN`, the least there is (R118). -/
def lowest : State := { loaded [204, wmin] with rb := wmin }

theorem lowest_legal : lowest.Legal :=
  ⟨by intro w hw; cases hw; decide, by decide, by decide, by decide, by decide, by decide, by decide,
    ⟨by decide, by decide, by decide, by decide⟩, by decide⟩

theorem witness_FaultInfoFitsOneMoreBit :
    lowest.Legal ∧ lowest.state = .running ∧
    ∃ t, step lowest = .next t ∧ t.fault.code = .addressError ∧ t.fault.info = 2 * wmin :=
  ⟨lowest_legal, rfl, _, rfl, by decide⟩

theorem witness_StoringInstructionsFrame :
    (Instr.add .immediate .immediate .position).format = .RRW ∧ (loaded [1101, 1, 98, 4]).mem.wf ∧
    (∃ t, exec (.add .immediate .immediate .position) (loaded [1101, 1, 98, 4]) = .next t) ∧
    resolveAddr ((loaded [1101, 1, 98, 4]).latch iip) .three .write = .ok 4 ∧
    (Instr.add .immediate .immediate .immediate).format = .RRW ∧
    (∃ t, exec (.add .immediate .immediate .immediate) (loaded [1101, 1, 98, 4]) = .next t) ∧
    resolveAddr ((loaded [1101, 1, 98, 4]).latch iii) .three .write = .error (.immediateWrite .three) :=
  ⟨rfl, by decide, ⟨_, rfl⟩, rfl, rfl, ⟨_, rfl⟩, rfl⟩

theorem witness_InputInstructionFrame :
    (fed [3, 0] [42]).mem.wf ∧ (∃ t, exec (.inp .position .position .position) (fed [3, 0] [42]) = .next t) ∧
    resolveAddr ((fed [3, 0] [42]).latch ppp) .one .write = .ok 0 ∧
    (loaded [3, 0]).mem.wf ∧
    (∃ t, exec (.inp .position .position .position) (loaded [3, 0]) = .next t ∧ t.ip = (loaded [3, 0]).ip) ∧
    (∃ t, exec (.inp .immediate .immediate .immediate) (fed [3, 0] [42]) = .next t) ∧
    resolveAddr ((fed [3, 0] [42]).latch iii) .one .write = .error (.immediateWrite .one) :=
  ⟨by decide, ⟨_, rfl⟩, rfl, by decide, ⟨_, rfl, rfl⟩, ⟨_, rfl⟩, rfl⟩

theorem witness_NonStoringInstructionsFrame :
    (Instr.jt .immediate .immediate .position).format ≠ .RRW ∧ (Instr.jt .immediate .immediate .position).format ≠ .W ∧
    (Instr.jt .immediate .immediate .position).opcode ≠ 9 ∧ (Instr.jt .immediate .immediate .position).opcode ≠ 4 ∧
    (Instr.jt .immediate .immediate .position).opcode ≠ 99 ∧
    (∃ t, exec (.jt .immediate .immediate .position) (loaded [1105, 1, 0]) = .next t) ∧
    ∃ t, exec (.jt .immediate .immediate .position) (loaded [1105, 1, -1]) = .next t ∧ t.state = .faulted :=
  ⟨by decide, by decide, by decide, by decide, by decide, ⟨_, rfl⟩, _, rfl, rfl⟩

theorem witness_OnlyAdjustBaseWritesBase :
    ∃ t, step (loaded [109, 1]) = .next t ∧ t.rb ≠ (loaded [109, 1]).rb := ⟨_, rfl, by decide⟩

theorem witness_OnlyStoringInstructionsWriteMemory :
    ((loaded [1101, 1, 98, 4]).mem.wf ∧
      ∃ t, step (loaded [1101, 1, 98, 4]) = .next t ∧ t.mem ≠ (loaded [1101, 1, 98, 4]).mem) ∧
    (fed [3, 0] [42]).mem.wf ∧ ∃ t, step (fed [3, 0] [42]) = .next t ∧ t.mem ≠ (fed [3, 0] [42]).mem :=
  ⟨⟨by decide, _, rfl, by decide⟩, by decide, _, rfl, by decide⟩

theorem witness_QueuesAreFifoOverARun : ∃ t, runLoop 2 (fed [104, 7, 99] [1]) = some t ∧ t.outlog = [7] := ⟨_, rfl, rfl⟩

theorem witness_OnlyInAndOutUseQueues :
    (∃ t, step (fed [3, 0] [42]) = .next t ∧ t.inq ≠ (fed [3, 0] [42]).inq) ∧
    ∃ t, step (loaded [104, 7]) = .next t ∧ t.outlog ≠ (loaded [104, 7]).outlog := ⟨⟨_, rfl, by decide⟩, _, rfl, by decide⟩

/-- One step into each of the four run states. -/
theorem witness_RunStateTransitions :
    (∀ p : List Int, (loaded p).state = .running ∧ (loaded p).fault = FaultRecord.clear) ∧
    (∃ t, step (loaded [99]) = .next t ∧ t.state = .halted) ∧ (∃ t, step (loaded [3, 0]) = .next t ∧ t.state = .paused) ∧
    (∃ t, step (loaded [98]) = .next t ∧ t.state = .faulted) ∧ ∃ t, step (loaded [104, 7]) = .next t ∧ t.state = .running :=
  ⟨fun _ => ⟨rfl, rfl⟩, ⟨_, rfl, rfl⟩, ⟨_, rfl, rfl⟩, ⟨_, rfl, rfl⟩, _, rfl, rfl⟩

theorem witness_StepMakesProgress :
    (loaded [1105, 1, 0]).state = .running ∧ ∃ t, step (loaded [1105, 1, 0]) = .next t ∧ t.ip = (loaded [1105, 1, 0]).ip :=
  ⟨rfl, _, rfl, rfl⟩

theorem witness_AdvanceIsInstructionLength :
    (loaded [1101, 1, 98, 4]).state = .running ∧ (Instr.add .immediate .immediate .position).format ≠ .RR ∧
    ∃ t, exec (.add .immediate .immediate .position) (loaded [1101, 1, 98, 4]) = .next t ∧ t.state = .running :=
  ⟨rfl, by decide, _, rfl, rfl⟩

/-- ADD, MUL, LT and EQ of 1 and WMIN into the next instruction's word; an IN into the word after it; a host inject at `ip`. -/
theorem witness_FetchSeesEarlierStores :
    (∀ i ∈ [Instr.add .immediate .immediate .position, .mul .immediate .immediate .position,
        .lt .immediate .immediate .position, .eq .immediate .immediate .position],
      (loaded [encode i, 1, wmin, 4]).mem.wf ∧ i.modes = iip) ∧
    (∀ w : Int, readOperand ((loaded [w, 1, wmin, 4]).latch iip) .one = .ok 1 ∧
      readOperand ((loaded [w, 1, wmin, 4]).latch iip) .two = .ok wmin ∧
      resolveAddr ((loaded [w, 1, wmin, 4]).latch iip) .three .write = .ok ((loaded [w, 1, wmin, 4]).ip + 4)) ∧
    (fits Config.standard (1 + wmin) = true ∧ fits Config.standard (1 * wmin) = true) ∧
    ((fed [3, 2] [99]).mem.wf ∧ (fed [3, 2] [99]).inq = 99 :: [] ∧
      resolveAddr ((fed [3, 2] [99]).latch ppp) .one .write = .ok ((fed [3, 2] [99]).ip + 2)) ∧
    ∃ t, inject (loaded [0]) (loaded [0]).ip 99 = .ok t := by
  refine ⟨by decide, fun w => ?_, by decide, ⟨by decide, rfl, rfl⟩, _, rfl⟩
  by_cases h : w = 0 <;> simp only [loaded, Memory.ofProgram, cellsOfProgram, h, if_true, if_false] <;> exact ⟨rfl, rfl, rfl⟩

/-- The product `(-2^32) * 2^31 = WMIN` of R145 is a 64-bit word. -/
def sixtyFour : State := State.resetWith ⟨some 64, none⟩ (Memory.ofProgram [1102, -4294967296, 2147483648, 5, 99])

theorem witness_ResultIndependentOfWidth :
    sixtyFour.cfg.wordBits = some 64 ∧ (∀ n ∈ (some 64 : Option Nat), 64 ≤ n) ∧ (∀ n ∈ (none : Option Nat), 64 ≤ n) ∧
    ∃ t, runLoop 2 sixtyFour = some t ∧ t.fault.code ≠ .overflow ∧ t.mem.get 5 = -9223372036854775808 :=
  ⟨rfl, (by intro n hn; cases hn; decide), (by intro n hn; cases hn), _, rfl, by decide, by decide⟩

theorem witness_StepKeepsLegal : lowest.Legal ∧ ∃ t, step lowest = .next t := ⟨lowest_legal, _, rfl⟩

/-- A session of the least width there is, and one whose Machine is running. -/
theorem witness_SessionStaysLegal :
    (⟨some 2, some 0⟩ : Config).wf ∧ (⟨Config.standard, [lowest], some 0⟩ : Session).Legal ∧
    (⟨Config.standard, [lowest], none⟩ : Session).Legal := by
  refine ⟨by intro w hw; cases hw; decide, ⟨by intro w hw; cases hw; decide, ?_, ?_⟩, ⟨by intro w hw; cases hw; decide, ?_, ?_⟩⟩
  · intro s hs
    rcases List.mem_singleton.mp hs with rfl
    exact ⟨lowest_legal, rfl⟩
  · intro i hi
    cases hi
    decide
  · intro s hs
    rcases List.mem_singleton.mp hs with rfl
    exact ⟨lowest_legal, rfl⟩
  · intro i hi
    cases hi

theorem witness_FuelledLoopIsRunLoop :
    ∃ t, runLoop 1 (loaded [99]) = some t ∧ RunsTo (loaded [99]) t :=
  ⟨_, rfl, RunsTo.more _ _ _ rfl rfl (RunsTo.exit _ (by decide))⟩

theorem witness_ResumeOutcomes :
    { loaded [3, 0] with state := .paused }.state = RunState.paused ∧ (loaded [3, 0]).state = .running ∧
    { loaded [99] with state := .halted }.state = RunState.halted ∧
    { loaded [98] with state := .faulted }.state = RunState.faulted := ⟨rfl, rfl, rfl, rfl⟩

theorem witness_PausedInputIsRetried :
    (loaded [3, 0]).state = .running ∧
    ∃ p q, step (loaded [3, 0]) = .next p ∧ p.state = .paused ∧ extendInput p (wmax :: []) = .ok q :=
  ⟨rfl, _, _, rfl, rfl, rfl⟩

/-- A word over the range, one word over the limit, and just as many words as the limit. -/
theorem witness_ConstructOutcomes :
    (∃ v ∈ [wmax + 1], fits Config.standard v = false) ∧
    ((∀ v ∈ ([1, 0, 0, 0, 99] : List Int), fits ⟨some 128, some 4⟩ v = true) ∧
      ∃ l ∈ (⟨some 128, some 4⟩ : Config).memLimit, l < ([1, 0, 0, 0, 99] : List Int).length) ∧
    (∀ v ∈ ([1, 0, 0, wmax] : List Int), fits ⟨some 128, some 4⟩ v = true) ∧
    ∀ l ∈ (⟨some 128, some 4⟩ : Config).memLimit, ([1, 0, 0, wmax] : List Int).length ≤ l := by
  refine ⟨⟨_, List.mem_singleton.mpr rfl, by decide⟩, ⟨by decide, 4, rfl, by decide⟩, by decide, ?_⟩
  intro l hl
  cases hl
  decide

theorem witness_InjectAndReadOutcomes :
    (limited 8 [99]).mem.wf ∧ (-1 : Int) < 0 ∧
    ((0 : Int) ≤ 8 ∧ inMemory (limited 8 [99]).cfg (8 : Int).toNat = false) ∧
    ((0 : Int) ≤ 7 ∧ inMemory (limited 8 [99]).cfg (7 : Int).toNat = true) ∧
    fits (limited 8 [99]).cfg (wmax + 1) = false ∧ fits (limited 8 [99]).cfg wmax = true := by decide

/-- Two Machines, the first with output, and no run in progress. -/
def pair : Session := ⟨Config.standard, [{ loaded [99] with outlog := [7, 8], state := .halted }, fed [3, 0] [1]], none⟩

theorem witness_QueueOperationsOutcomes :
    (∃ v ∈ [1, wmin - 1], fits (loaded [99]).cfg v = false) ∧ (∀ v ∈ [wmin, wmax], fits (loaded [99]).cfg v = true) ∧
    pair.active = none ∧ 0 ≠ 1 ∧ (∃ s, pair.machines[0]? = some s) ∧ ∃ t, pair.machines[1]? = some t := by
  refine ⟨⟨wmin - 1, by simp, by decide⟩, by decide, rfl, by decide, ⟨_, rfl⟩, _, rfl⟩

theorem witness_OutputReadingOutcomes :
    (loaded [99]).outlog = [] ∧ { loaded [99] with outlog := [7, 8] }.outlog = [7] ++ [8] := ⟨rfl, rfl⟩

theorem witness_StatusReadingOutcomes : ((-1 : Int) < 0 ∨ 3 < (-1 : Int)) ∧ ((4 : Int) < 0 ∨ 3 < (4 : Int)) := by decide

theorem witness_HostErrorChangesNothing :
    (pair.issue (.drainOutputInto 0 0)).2.turnsAway = true ∧ (pair.issue (.readStatus 0 4)).2.turnsAway = true ∧
    (pair.issue (.run 2)).2.turnsAway = true := ⟨rfl, rfl, rfl⟩

theorem witness_BusyDuringARun : { pair with active := some 1 }.active ≠ none := by decide

/-- A run in progress of a Running and of a Halted Machine, and no run in progress. -/
theorem witness_RunInProgressReturnsExitReport :
    ({ pair with active := some 1 }.active = some 1 ∧
      ∃ s, { pair with active := some 1 }.machines[1]? = some s ∧ s.state = .running) ∧
    ({ pair with active := some 0 }.active = some 0 ∧
      ∃ s, { pair with active := some 0 }.machines[0]? = some s ∧ s.state ≠ .running) ∧
    pair.active = none ∧ ∃ s, pair.machines[1]? = some s :=
  ⟨⟨rfl, _, rfl, rfl⟩, ⟨rfl, _, rfl, by decide⟩, rfl, _, rfl⟩

theorem witness_MachinesAreIsolated :
    1 < pair.machines.length ∧ 1 ∉ touched (.inject 0 0 5) ∧ { pair with active := some 1 }.active ≠ some 0 := by decide

theorem witness_CloneCopiesEveryField :
    pair.active = none ∧ (∃ s, pair.machines[0]? = some s) ∧ 1 < pair.machines.length := ⟨rfl, ⟨_, rfl⟩, by decide⟩

theorem witness_EndedMachineStaysEnded :
    ∃ s, pair.machines[0]? = some s ∧ s.ended ∧ ∀ p, HostCmd.run 0 ≠ .reboot 0 p :=
  ⟨_, rfl, .inl rfl, fun _ h => HostCmd.noConfusion h⟩

theorem witness_DisassemblyAssemblesBack :
    (decodeWord ((Memory.ofProgram [1101, 1, 98, 4]).get 0) = .ok (.add .immediate .immediate .position) ∧
      (Instr.add .immediate .immediate .position).wellFormed = true ∧
      (Instr.add .immediate .immediate .position).canonical = true) ∧
    decodeWord ((Memory.ofProgram [98]).get 0) = .error .invalidOpcode := ⟨⟨rfl, rfl, rfl⟩, rfl⟩

end Sys2Proof.Tests
end

section
/-! SUPPORT. Canonical tapes (R20): a cell is listed exactly when it reads a word other than 0, so a tape is what it reads. -/

namespace Sys2Proof.Machine

/-- A canonical tape lists exactly the cells that do not read 0. -/
theorem Memory.mem_cells_iff {m : Memory} (h : m.wf) {c : Nat × Int} : c ∈ m.cells ↔ m.get c.1 = c.2 ∧ c.2 ≠ 0 := by
  constructor
  · intro hc
    exact ⟨cellsGet_of_mem h.1 hc, h.2 c hc⟩
  · rintro ⟨hget, hne⟩
    rcases cellsGet_mem m.cells c.1 with hzero | hmem
    · exact absurd (hget.symm.trans hzero) hne
    · have hc : (c.1, cellsGet m.cells c.1) = c := Prod.ext rfl hget
      exact hc ▸ hmem

/-- Two lists of cells by rising address with the same members are the same list. -/
theorem cells_eq_of_mem_iff {l l' : List (Nat × Int)} (h : l.Pairwise fun c d => c.1 < d.1)
    (h' : l'.Pairwise fun c d => c.1 < d.1) (hmem : ∀ c, c ∈ l ↔ c ∈ l') : l = l' := by
  have nodup : ∀ {l : List (Nat × Int)}, (l.Pairwise fun c d => c.1 < d.1) → l.Nodup := fun h =>
    h.imp (S := (· ≠ ·)) fun hlt heq => by simp [heq] at hlt
  exact ((List.perm_ext_iff_of_nodup (nodup h) (nodup h')).mpr hmem).eq_of_pairwise
    (fun c d _ _ hcd hdc => absurd hcd (by omega)) h h'

/-- Settles O12: both lists of cells rise by address and list the same cells, those that do not read 0. -/
theorem canonicalMemoryIsUnique : Obligations.CanonicalMemoryIsUnique := by
  intro m n hm hn hget
  have hcells : m.cells = n.cells := cells_eq_of_mem_iff hm.1 hn.1 fun c => by
    rw [Memory.mem_cells_iff hm, Memory.mem_cells_iff hn, hget]
  cases m
  cases n
  exact congrArg Memory.mk hcells

end Sys2Proof.Machine
end

section
/-! SUPPORT. One rule per update of a legal state: which updates of a field keep `State.Legal`. -/

namespace Sys2Proof.Machine

variable {s : State}

/-- The cleared record matches every run state but Faulted (R28, R36). -/
theorem FaultRecord.clear_matches {st : RunState} (h : st ≠ .faulted) (a : Nat) : FaultRecord.clear.matches st a where
  written := by simp [h, FaultRecord.clear]
  cleared _ := rfl
  cause_iff := by simp [FaultRecord.clear]
  at_ip hf := absurd hf h

/-- A record written by a fault at `ip` matches Faulted (R27, R290). -/
theorem Fault.record_matches (f : Fault) (a : Nat) (w : Int) : (f.record a w).matches .faulted a where
  written := by simp
  cleared hf := absurd rfl hf
  cause_iff := f.cause_ne_none_iff
  at_ip _ := rfl

/-- Every cell of a legal tape reads a word (R20). -/
theorem State.Legal.get_fits (h : s.Legal) (a : Nat) : fits s.cfg (s.mem.get a) = true := by
  rcases cellsGet_mem s.mem.cells a with hzero | hmem
  · rw [Memory.get, hzero]
    exact fits_zero h.cfg_wf
  · exact h.mem_fits _ hmem

/-- A read operand of a legal state is a word (R122). -/
theorem State.Legal.readOperand_fits (h : s.Legal) {k : Slot} {v : Int} (hv : readOperand s k = .ok v) :
    fits s.cfg v = true := by
  obtain ⟨a, -, rfl⟩ := readOperand_eq_ok_iff.mp hv
  exact h.get_fits a

/-- A legal Machine that is not Faulted has the cleared record (R28). -/
theorem State.Legal.fault_clear (h : s.Legal) (hs : s.state ≠ .faulted) : s.fault = FaultRecord.clear :=
  h.record.cleared hs

/-- The latch is free: its three modes are always modes (R24). -/
theorem State.Legal.latch (h : s.Legal) (m : Modes) : (s.latch m).Legal := { h with }

/-- A store of a word at an address (R53). -/
theorem State.Legal.set_mem (h : s.Legal) {a : Nat} {v : Int} (ha : inMemory s.cfg a = true) (hv : fits s.cfg v = true) :
    { s with mem := s.mem.set a v }.Legal :=
  { h with
    mem_wf := Memory.wf_set h.mem_wf a v
    mem_fits := fun c hc => by
      rcases mem_cellsSet hc with ⟨rfl, -⟩ | hc
      · exact hv
      · exact h.mem_fits c hc
    mem_below := fun c hc => by
      rcases mem_cellsSet hc with ⟨rfl, -⟩ | hc
      · exact ha
      · exact h.mem_below c hc }

/-- A new relative base (R23, R220). -/
theorem State.Legal.set_rb (h : s.Legal) {v : Int} (hv : fits s.cfg v = true) : { s with rb := v }.Legal :=
  { h with rb_fits := hv }

/-- A new input queue (R25). -/
theorem State.Legal.set_inq (h : s.Legal) {q : List Int} (hq : ∀ v ∈ q, fits s.cfg v = true) : { s with inq := q }.Legal :=
  { h with inq_fits := hq }

/-- A new output log (R26). -/
theorem State.Legal.set_outlog (h : s.Legal) {l : List Int} (hl : ∀ v ∈ l, fits s.cfg v = true) :
    { s with outlog := l }.Legal :=
  { h with outlog_fits := hl }

/-- A new pointer, while the Machine is not Faulted (R22, R27). -/
theorem State.Legal.set_ip (h : s.Legal) (hs : s.state ≠ .faulted) (a : Nat) : { s with ip := a }.Legal :=
  { h with record := (h.fault_clear hs).symm ▸ FaultRecord.clear_matches hs a }

/-- A new run state, where neither is Faulted (R28). -/
theorem State.Legal.set_state (h : s.Legal) (hs : s.state ≠ .faulted) {st : RunState} (hst : st ≠ .faulted) :
    { s with state := st }.Legal :=
  { h with record := (h.fault_clear hs).symm ▸ FaultRecord.clear_matches hst s.ip }

/-- Waking a Machine (R131). -/
theorem State.Legal.wake (h : s.Legal) : s.wake.Legal := by
  by_cases hp : s.state = .paused
  · rw [State.wake_of_paused hp]
    exact h.set_state (by simp [hp]) (by decide)
  · rwa [State.wake_of_not_paused hp]

/-- A fault taken, with a word recorded (R290). -/
theorem State.Legal.enterFault (h : s.Legal) {w : Int} (hw : fits s.cfg w = true) (f : Fault) : (s.enterFault w f).Legal :=
  { h with
    record := f.record_matches s.ip w
    word_fits := hw }

/-- The reset state around a legal tape (R36). -/
theorem State.resetWith_legal {c : Config} {m : Memory} (hc : c.wf) (hm : m.wf) (hf : ∀ d ∈ m.cells, fits c d.2 = true)
    (hb : ∀ d ∈ m.cells, inMemory c d.1 = true) : (State.resetWith c m).Legal where
  cfg_wf := hc
  mem_wf := hm
  mem_fits := hf
  mem_below := hb
  rb_fits := fits_zero hc
  inq_fits := by simp
  outlog_fits := by simp
  record := FaultRecord.clear_matches (by simp) 0
  word_fits := fits_zero hc

end Sys2Proof.Machine
end

section
/-! SUPPORT. What a commit and a step keep, from the inversion of `exec` and `step` (`exec_next_cases`, `step_next_cases`). -/

namespace Sys2Proof.Machine

variable {i : Instr} {s t u : State}

/-- No commit changes the configuration (R35). -/
theorem Commits.cfg_eq (h : Commits i u t) : t.cfg = u.cfg := by cases h <;> rfl

/-- No step changes the configuration (R35). -/
theorem step_cfg (h : step s = .next t) : t.cfg = s.cfg := by
  rcases step_next_cases h with ⟨-, rfl⟩ | ⟨-, i, -, -, -, hc⟩ | ⟨-, m, w, f, -, rfl⟩
  · rfl
  · exact hc.cfg_eq
  · rfl

/-- What an instruction commits on a legal Running Machine is legal (R20, R23, R25, R26). -/
theorem Commits.legal (hc : Commits i u t) (h : u.Legal) (hs : u.state = .running) : t.Legal := by
  have hne : u.state ≠ .faulted := by simp [hs]
  cases hc with
  | store a b d r hi ha hb hd hr =>
    have hfit : fits u.cfg r = true := by
      rcases hr with ⟨-, -, hf⟩ | ⟨-, -, hf⟩ | ⟨-, rfl⟩ | ⟨-, rfl⟩
      · exact hf
      · exact hf
      · exact fits_boolWord h.cfg_wf _
      · exact fits_boolWord h.cfg_wf _
    exact (h.set_mem (resolveAddr_inMemory hd) hfit).set_ip hne _
  | pop v rest d hi hd hq =>
    obtain ⟨hv, hrest⟩ := List.forall_mem_cons.mp (hq ▸ h.inq_fits)
    exact ((h.set_mem (resolveAddr_inMemory hd) hv).set_inq hrest).set_ip hne _
  | pause d hi hd hq => exact h.set_state hne (by decide)
  | emit a hi ha =>
    have hlog : ∀ v ∈ u.outlog ++ [a], fits u.cfg v = true :=
      List.forall_mem_append.mpr ⟨h.outlog_fits, by simpa using h.readOperand_fits ha⟩
    exact (h.set_outlog hlog).set_ip hne _
  | jump a v hi ha hv h0 => exact h.set_ip hne _
  | fall a v hi ha hv => exact h.set_ip hne _
  | rebase a hi ha hf => exact (h.set_rb hf).set_ip hne _
  | halt hi => exact h.set_state hne (by decide)

/-- Settles O42: a step is the identity, a commit, or a fault taken with a word of the tape or 0 recorded; each keeps a legal state
legal. -/
theorem stepKeepsLegal : Obligations.StepKeepsLegal := by
  intro s t hs h
  rcases step_next_cases h with ⟨-, rfl⟩ | ⟨hrun, i, -, -, -, hc⟩ | ⟨-, m, w, f, hw, rfl⟩
  · exact hs
  · exact hc.legal (hs.latch i.modes) hrun
  · have hfit : fits s.cfg w = true := by
      rcases hw with ⟨rfl, -⟩ | ⟨rfl, -⟩
      · exact hs.get_fits s.ip
      · exact fits_zero hs.cfg_wf
    exact (hs.latch m).enterFault hfit f

/-- A step that changes what a fault keeps is a commit of the instruction at `ip`. -/
theorem step_commits_of_ne {α : Type} {g : State → α} (hg : ∀ m w f, g ((s.latch m).enterFault w f) = g s)
    (h : step s = .next t) (hne : g t ≠ g s) :
    ∃ i, decodeWord (s.mem.get s.ip) = .ok i ∧ Commits i (s.latch i.modes) t := by
  rcases step_next_cases h with ⟨-, rfl⟩ | ⟨-, i, -, hd, -, hc⟩ | ⟨-, m, w, f, -, rfl⟩
  · exact absurd rfl hne
  · exact ⟨i, hd, hc⟩
  · exact absurd (hg m w f) hne

/-- The opcode and the three modes are all there is to an instruction (R81, R83). -/
theorem instrOfOpcode_opcode_modes (i : Instr) : instrOfOpcode i.opcode i.modes = some i := by cases i <;> rfl

/-- Instructions with one opcode and the same modes are equal. -/
theorem instr_eq_of_opcode_modes {i j : Instr} (ho : i.opcode = j.opcode) (hm : i.modes = j.modes) : i = j :=
  Option.some.inj (by rw [← instrOfOpcode_opcode_modes i, ← instrOfOpcode_opcode_modes j, ho, hm])

/-- Opcode 3 is IN. -/
theorem eq_inp_of_opcode (h : i.opcode = 3) : i = .inp i.modes.m1 i.modes.m2 i.modes.m3 :=
  instr_eq_of_opcode_modes h rfl

/-- Opcode 4 is OUT. -/
theorem eq_out_of_opcode (h : i.opcode = 4) : i = .out i.modes.m1 i.modes.m2 i.modes.m3 :=
  instr_eq_of_opcode_modes h rfl

/-- Opcode 9 is ARB. -/
theorem eq_arb_of_opcode (h : i.opcode = 9) : i = .arb i.modes.m1 i.modes.m2 i.modes.m3 :=
  instr_eq_of_opcode_modes h rfl

/-- A commit changes `rb` for ARB only (R23). -/
theorem Commits.opcode_of_rb_ne (h : Commits i u t) (hne : t.rb ≠ u.rb) : i.opcode = 9 := by
  cases h with
  | rebase a hi ha hf => exact hi
  | _ => exact absurd rfl hne

/-- A commit changes memory for ADD, MUL, LT and EQ in the cell of slot 3, and for IN in the cell of slot 1 (R116). -/
theorem Commits.store_of_mem_ne (h : Commits i u t) (hne : t.mem ≠ u.mem) :
    ∃ (d : Nat) (v : Int), (i.opcode ∈ [1, 2, 7, 8] ∧ resolveAddr u .three .write = .ok d ∨
      i.opcode = 3 ∧ resolveAddr u .one .write = .ok d) ∧ t.mem = u.mem.set d v := by
  cases h with
  | store a b d r hi ha hb hd hr =>
    have hop : i.opcode ∈ [1, 2, 7, 8] := by
      rcases hr with ⟨ho, -⟩ | ⟨ho, -⟩ | ⟨ho, -⟩ | ⟨ho, -⟩ <;> simp [ho]
    exact ⟨d, r, .inl ⟨hop, hd⟩, rfl⟩
  | pop v rest d hi hd hq => exact ⟨d, v, .inr ⟨hi, hd⟩, rfl⟩
  | _ => exact absurd rfl hne

/-- A commit changes the input queue for IN only, which moves the front word to the cell of its slot (R160). -/
theorem Commits.pop_of_inq_ne (h : Commits i u t) (hne : t.inq ≠ u.inq) :
    i.opcode = 3 ∧ ∃ (d : Nat) (v : Int), resolveAddr u .one .write = .ok d ∧ u.inq = v :: t.inq ∧
      t.mem = u.mem.set d v := by
  cases h with
  | pop v rest d hi hd hq => exact ⟨hi, d, v, hd, hq, rfl⟩
  | _ => exact absurd rfl hne

/-- A commit changes the output log for OUT only, which appends its operand (R165). -/
theorem Commits.emit_of_outlog_ne (h : Commits i u t) (hne : t.outlog ≠ u.outlog) :
    i.opcode = 4 ∧ ∃ v : Int, readOperand u .one = .ok v ∧ t.outlog = u.outlog ++ [v] := by
  cases h with
  | emit a hi ha => exact ⟨hi, a, ha, rfl⟩
  | _ => exact absurd rfl hne

/-- A commit pauses for IN only, on an empty queue, and changes nothing else (R160). -/
theorem Commits.pause_of_paused (h : Commits i u t) (hu : u.state = .running) (ht : t.state = .paused) :
    i.opcode = 3 ∧ u.inq = [] ∧ t = u.pause ∧ ∃ d, resolveAddr u .one .write = .ok d := by
  cases h with
  | pause d hi hd hq => exact ⟨hi, hq, rfl, d, hd⟩
  | halt hi => cases ht
  | _ => exact absurd (hu.symm.trans ht) (by decide)

/-- Settles O32: a step that changes `rb` is a commit, and among the commits only ARB's does. -/
theorem onlyAdjustBaseWritesBase : Obligations.OnlyAdjustBaseWritesBase := by
  intro s t h hne
  obtain ⟨i, hd, hc⟩ := step_commits_of_ne (g := State.rb) (fun _ _ _ => rfl) h hne
  exact ⟨_, _, _, eq_arb_of_opcode (hc.opcode_of_rb_ne hne) ▸ hd⟩

/-- Settles O33: a step that changes memory is a commit that stores in the cell its write slot resolves to. -/
theorem onlyStoringInstructionsWriteMemory : Obligations.OnlyStoringInstructionsWriteMemory := by
  intro s t hwf h hne
  obtain ⟨i, hdec, hc⟩ := step_commits_of_ne (g := State.mem) (fun _ _ _ => rfl) h hne
  obtain ⟨d, v, hslot, hmem⟩ := hc.store_of_mem_ne hne
  have hin : inMemory (s.latch i.modes).cfg d = true := by
    rcases hslot with ⟨-, hd⟩ | ⟨-, hd⟩ <;> exact resolveAddr_inMemory hd
  refine ⟨i, d, hdec, hslot, hin, fun a ha => ?_⟩
  rw [hmem, State.latch_mem, Memory.get_set hwf, if_neg ha]

/-- Settles O35: a step that changes a queue is a commit, of IN for the input queue and of OUT for the output log. -/
theorem onlyInAndOutUseQueues : Obligations.OnlyInAndOutUseQueues := by
  intro s t h
  constructor
  · intro hne
    obtain ⟨i, hdec, hc⟩ := step_commits_of_ne (g := State.inq) (fun _ _ _ => rfl) h hne
    obtain ⟨hi, d, v, hd, hq, hmem⟩ := hc.pop_of_inq_ne hne
    exact ⟨_, _, _, d, v, eq_inp_of_opcode hi ▸ hdec, hd, hq, hmem⟩
  · intro hne
    obtain ⟨i, hdec, hc⟩ := step_commits_of_ne (g := State.outlog) (fun _ _ _ => rfl) h hne
    obtain ⟨hi, v, hv, hlog⟩ := hc.emit_of_outlog_ne hne
    exact ⟨_, _, _, v, eq_out_of_opcode hi ▸ hdec, hv, hlog⟩

end Sys2Proof.Machine
end

section
/-! SUPPORT. The queues over a run (R25, R26), and the retry of a paused IN (R131, R160). -/

namespace Sys2Proof.Machine

variable {s t u : State}

/-- The second state's input queue is what is left of the first's, and its output log continues the first's (R25, R26). -/
def State.QueuesFlow (s t : State) : Prop :=
  (∃ consumed : List Int, s.inq = consumed ++ t.inq) ∧ ∃ produced : List Int, t.outlog = s.outlog ++ produced

/-- No step, no change of a queue. -/
theorem State.QueuesFlow.refl (s : State) : s.QueuesFlow s := ⟨⟨[], rfl⟩, [], (List.append_nil _).symm⟩

/-- What flows in two parts of a run flows in the whole. -/
theorem State.QueuesFlow.trans (h : s.QueuesFlow t) (h' : t.QueuesFlow u) : s.QueuesFlow u := by
  obtain ⟨⟨c, hc⟩, p, hp⟩ := h
  obtain ⟨⟨c', hc'⟩, p', hp'⟩ := h'
  exact ⟨⟨c ++ c', by rw [hc, hc', List.append_assoc]⟩, p ++ p', by rw [hp', hp, List.append_assoc]⟩

/-- One step takes at most the front word of the queue and appends at most one word to the log (R160, R165). -/
theorem step_queuesFlow (h : step s = .next t) : s.QueuesFlow t := by
  constructor
  · by_cases hq : t.inq = s.inq
    · exact ⟨[], hq.symm⟩
    · obtain ⟨_, _, _, _, v, -, -, hpop, -⟩ := (onlyInAndOutUseQueues s t h).1 hq
      exact ⟨[v], hpop⟩
  · by_cases hl : t.outlog = s.outlog
    · exact ⟨[], by simp [hl]⟩
    · obtain ⟨_, _, _, v, -, -, hemit⟩ := (onlyInAndOutUseQueues s t h).2 hl
      exact ⟨[v], hemit⟩

/-- A loop that returns has returned at once, or after a step and the loop from there (R129). -/
theorem runLoop_succ_cases {fuel : Nat} (h : runLoop (fuel + 1) s = some t) :
    (s.state ≠ .running ∧ t = s) ∨ ∃ u, step s = .next u ∧ runLoop fuel u = some t := by
  unfold runLoop at h
  split at h
  · cases hs : step s <;> simp only [hs, reduceCtorEq] at h
    exact .inr ⟨_, rfl, h⟩
  · exact .inl ⟨‹_›, (Option.some.inj h).symm⟩

/-- A loop without fuel returns at once (R129). -/
theorem runLoop_zero_eq_some (h : runLoop 0 s = some t) : t = s := by
  unfold runLoop at h
  split at h
  · cases h
  · exact (Option.some.inj h).symm

/-- Settles O34, by induction on the fuel. -/
theorem queuesAreFifoOverARun : Obligations.QueuesAreFifoOverARun := by
  intro fuel
  induction fuel with
  | zero =>
    intro s t h
    exact runLoop_zero_eq_some h ▸ State.QueuesFlow.refl s
  | succ fuel ih =>
    intro s t h
    rcases runLoop_succ_cases h with ⟨-, rfl⟩ | ⟨u, hstep, hrest⟩
    · exact State.QueuesFlow.refl t
    · exact (step_queuesFlow hstep).trans (ih u t hrest)

/-- A step that ends Paused from Running is an IN at `ip`, pausing on an empty queue after its slot has passed (R160). -/
theorem step_paused (hs : s.state = .running) (h : step s = .next t) (ht : t.state = .paused) :
    ∃ (m : Modes) (d : Nat), inMemory s.cfg s.ip = true ∧
      decodeWord (s.mem.get s.ip) = .ok (.inp m.m1 m.m2 m.m3) ∧ resolveAddr (s.latch m) .one .write = .ok d ∧
      s.inq = [] ∧ t = (s.latch m).pause := by
  rcases step_next_cases h with ⟨hne, -⟩ | ⟨-, i, -, hdec, hin, hc⟩ | ⟨-, m, w, f, -, rfl⟩
  · exact absurd hs hne
  · obtain ⟨hop, hq, rfl, d, hd⟩ := hc.pause_of_paused hs ht
    exact ⟨i.modes, d, hin, eq_inp_of_opcode hop ▸ hdec, hd, hq, rfl⟩
  · cases ht

/-- Fetch and decode answer the instruction of the word at `ip`, where `ip` is an address (R111 to R113). -/
theorem fetchInstr_eq_ok_iff {i : Instr} :
    fetchInstr s = .ok i ↔ inMemory s.cfg s.ip = true ∧ decodeWord (s.mem.get s.ip) = .ok i := by
  rcases fetchInstr_cases s with ⟨j, hi, hm, hd⟩ | ⟨r, hi, hm, hd⟩ | ⟨hi, hm⟩
  · simp [hi, hm, hd]
  · simp [hi, hd]
  · simp [hi, hm]

/-- The step of an IN with a word waiting (R160). -/
theorem step_inp_of_cons {m1 m2 m3 : Mode} {d : Nat} {v : Int} {rest : List Int} (hs : s.state = .running)
    (hin : inMemory s.cfg s.ip = true) (hdec : decodeWord (s.mem.get s.ip) = .ok (.inp m1 m2 m3))
    (hd : resolveAddr (s.latch ⟨m1, m2, m3⟩) .one .write = .ok d) (hq : s.inq = v :: rest) :
    step s = .next { s.latch ⟨m1, m2, m3⟩ with inq := rest, mem := s.mem.set d v, ip := s.ip + 2 } := by
  rw [step_of_running hs, fetchInstr_eq_ok_iff.mpr ⟨hin, hdec⟩]
  exact runHandler_of_ok (inputHandler_eq_ok_iff.mpr ⟨d, hd, .inr ⟨v, rest, hq, rfl⟩⟩)

/-- A host that extends an input queue with words changes nothing else (R249). -/
theorem extendInput_eq_ok_iff {vs : List Int} :
    extendInput s vs = .ok t ↔ (∀ v ∈ vs, fits s.cfg v = true) ∧ t = { s with inq := s.inq ++ vs } := by
  unfold extendInput
  rw [← List.all_eq_true]
  split <;> rename_i h <;> simp [h, eq_comm]

/-- Settles O46: the pause leaves `ip`, the tape and the base as they were, so the woken Machine fetches the same IN and resolves
its slot to the same address. -/
theorem pausedInputIsRetried : Obligations.PausedInputIsRetried := by
  intro s p q v vs hs h hp hext
  obtain ⟨m, d, hin, hdec, hd, hempty, rfl⟩ := step_paused hs h hp
  obtain ⟨-, rfl⟩ := extendInput_eq_ok_iff.mp hext
  refine ⟨rfl, step_of_not_running (by simp), m.m1, m.m2, m.m3, d, hdec, hd, ?_⟩
  rw [State.wake_of_paused rfl]
  have hd' : resolveAddr _ .one .write = .ok d := (resolveAddr_congr rfl rfl rfl rfl rfl .write).symm.trans hd
  exact step_inp_of_cons rfl hin hdec hd' (by simp [hempty])

end Sys2Proof.Machine
end

section
/-! SUPPORT. Which faults an instruction raises, and the range of their `fault_info` (R27, R118). -/

namespace Sys2Proof.Machine

open Claims

variable {i : Instr} {s t u : State} {f : Fault}

/-- The faults a handler can raise (R125): a slot's, a taken jump's negative target, or Overflow. -/
inductive Raises (u : State) : Fault → Prop where
  | slot (k : Slot) (acc : Access) (f : Fault) (h : resolveAddr u k acc = .error f) : Raises u f
  | target (v : Int) (hv : readOperand u .two = .ok v) (h : v < 0) : Raises u (.negativeTarget v)
  | overflow : Raises u .overflow

/-- Format RRW raises a slot's fault or Overflow, when its ALU raises no other. -/
theorem binaryHandler_raises {alu : Config → Int → Int → Except Fault Int} (h : binaryHandler alu u = .error f)
    (halu : ∀ a b, alu u.cfg a b = .error f → f = .overflow) : Raises u f := by
  rcases binaryHandler_error_cases h with h | h | h | ⟨a, b, -, -, h⟩
  · exact .slot _ _ f h
  · exact .slot _ _ f h
  · exact .slot _ _ f h
  · exact halu a b h ▸ .overflow

/-- Format RR raises a slot's fault or the negative target of R190. -/
theorem jumpHandler_raises {taken : Int → Bool} (h : jumpHandler taken u = .error f) : Raises u f := by
  rcases jumpHandler_error_cases h with h | h | ⟨v, hv, hneg, rfl⟩
  · exact .slot _ _ f h
  · exact .slot _ _ f h
  · exact .target v hv hneg

/-- ARB raises its slot's fault or Overflow (R220). -/
theorem rebaseHandler_raises (h : rebaseHandler u = .error f) : Raises u f := by
  rcases rebaseHandler_error_cases h with h | ⟨a, -, -, rfl⟩
  · exact .slot _ _ f h
  · exact .overflow

/-- What format RRW commits leaves the record. -/
theorem binaryHandler_keeps_fault {alu : Config → Int → Int → Except Fault Int} (h : binaryHandler alu u = .ok t) :
    t.fault = u.fault := by
  obtain ⟨_, _, _, _, -, -, -, -, rfl⟩ := binaryHandler_eq_ok_iff.mp h
  rfl

/-- What format RR commits leaves the record. -/
theorem jumpHandler_keeps_fault {taken : Int → Bool} (h : jumpHandler taken u = .ok t) : t.fault = u.fault := by
  obtain ⟨_, _, -, -, ⟨-, -, rfl⟩ | ⟨-, rfl⟩⟩ := jumpHandler_eq_ok_iff.mp h <;> rfl

/-- What IN commits leaves the record. -/
theorem inputHandler_keeps_fault (h : inputHandler u = .ok t) : t.fault = u.fault := by
  obtain ⟨_, -, ⟨-, rfl⟩ | ⟨_, _, -, rfl⟩⟩ := inputHandler_eq_ok_iff.mp h <;> rfl

/-- What OUT commits leaves the record. -/
theorem outputHandler_keeps_fault (h : outputHandler u = .ok t) : t.fault = u.fault := by
  obtain ⟨_, -, rfl⟩ := outputHandler_eq_ok_iff.mp h
  rfl

/-- What ARB commits leaves the record. -/
theorem rebaseHandler_keeps_fault (h : rebaseHandler u = .ok t) : t.fault = u.fault := by
  obtain ⟨_, -, -, rfl⟩ := rebaseHandler_eq_ok_iff.mp h
  rfl

/-- An instruction leaves the record or takes a fault it raises, when its handler does. -/
theorem runHandler_fault_cases {m : Modes} {handler : State → Except Fault State} (h : runHandler m s handler = .next t)
    (hok : ∀ v, handler (s.latch m) = .ok v → v.fault = s.fault)
    (herr : ∀ f, handler (s.latch m) = .error f → Raises (s.latch m) f) :
    t.fault = s.fault ∨ ∃ f, Raises (s.latch m) f ∧ t = (s.latch m).enterFault (s.mem.get s.ip) f := by
  rcases runHandler_eq_next_iff.mp h with ht | ⟨f, hf, rfl⟩
  · exact .inl (hok t ht)
  · exact .inr ⟨f, herr f hf, rfl⟩

/-- An instruction leaves the fault record, or takes a fault it raises (R290). -/
theorem exec_fault_cases (h : exec i s = .next t) :
    t.fault = s.fault ∨
      ∃ f, Raises (s.latch i.modes) f ∧ t = (s.latch i.modes).enterFault (s.mem.get s.ip) f := by
  cases i with
  | add | mul =>
    exact runHandler_fault_cases h (fun _ => binaryHandler_keeps_fault) fun _ hf =>
      binaryHandler_raises hf fun _ _ hc => (checked_eq_error_iff.mp hc).2
  | lt | eq =>
    exact runHandler_fault_cases h (fun _ => binaryHandler_keeps_fault) fun _ hf =>
      binaryHandler_raises hf fun _ _ hc => nomatch hc
  | inp =>
    exact runHandler_fault_cases h (fun _ => inputHandler_keeps_fault) fun f hf =>
      .slot _ _ f (inputHandler_eq_error_iff.mp hf)
  | out =>
    exact runHandler_fault_cases h (fun _ => outputHandler_keeps_fault) fun f hf =>
      .slot _ _ f (outputHandler_eq_error_iff.mp hf)
  | jt | jf => exact runHandler_fault_cases h (fun _ => jumpHandler_keeps_fault) fun _ => jumpHandler_raises
  | arb => exact runHandler_fault_cases h (fun _ => rebaseHandler_keeps_fault) fun _ => rebaseHandler_raises
  | halt =>
    cases h
    exact .inl rfl

/-- An AddressError that a step records anew is raised by an instruction, since no fetch raises one (R111, R280). -/
theorem step_addressError (h : step s = .next t) (hs : s.fault.code ≠ .addressError) (ht : t.fault.code = .addressError) :
    ∃ (m : Modes) (f : Fault), Raises (s.latch m) f ∧ f.code = .addressError ∧ t.fault.info = f.info := by
  by_cases hrun : s.state = .running
  · rw [step_of_running hrun] at h
    rcases fetchInstr_cases s with ⟨i, hi, -, -⟩ | ⟨r, hi, -, -⟩ | ⟨hi, -⟩
    · rw [hi] at h
      rcases exec_fault_cases h with heq | ⟨f, hf, rfl⟩
      · exact absurd (heq ▸ ht) hs
      · exact ⟨i.modes, f, hf, ht, rfl⟩
    · rw [hi] at h
      cases h
      cases r <;> cases ht
    · rw [hi] at h
      cases h
      cases ht
  · rw [step_of_not_running hrun] at h
    cases h
    exact absurd ht hs

/-- The address a resolution fails at: the parameter's own, or the one the parameter gives (R117, R118). -/
theorem resolveAddr_error_address {k : Slot} {acc : Access} (h : resolveAddr s k acc = .error f) :
    f = .immediateWrite k ∨ ∃ a : Int, checkAddr s.cfg a = .error f ∧
      (0 ≤ a ∨ a = s.mem.get (s.ip + k.num) ∨ a = s.rb + s.mem.get (s.ip + k.num)) := by
  have hraw : ∀ {v : Int}, memRead s ((s.ip + k.num : Nat) : Int) = .ok v → v = s.mem.get (s.ip + k.num) := by
    intro v hv
    obtain ⟨n, hn, -, rfl⟩ := memRead_eq_ok_iff.mp hv
    rw [Int.ofNat.inj hn]
  unfold resolveAddr at h
  split at h
  · split at h
    · cases h
      exact .inl rfl
    · exact .inr ⟨_, h, .inl (Int.natCast_nonneg _)⟩
  · cases hm : memRead s ((s.ip + k.num : Nat) : Int) <;> simp only [hm, bind, Except.bind] at h
    · cases h
      exact .inr ⟨_, memRead_eq_error_iff.mp hm, .inl (Int.natCast_nonneg _)⟩
    · exact .inr ⟨_, h, .inr (.inl (hraw hm))⟩
  · cases hm : memRead s ((s.ip + k.num : Nat) : Int) <;> simp only [hm, bind, Except.bind] at h
    · cases h
      exact .inr ⟨_, memRead_eq_error_iff.mp hm, .inl (Int.natCast_nonneg _)⟩
    · exact .inr ⟨_, h, .inr (.inr (by rw [hraw hm]))⟩

/-- The sum of two words has at most one bit more (R118). -/
theorem fitsInfo_add {c : Config} (hc : c.wf) {a b : Int} (ha : fits c a = true) (hb : fits c b = true) :
    fitsInfo c (a + b) := by
  intro w hw
  have hpow : 2 ^ (w - 1) + 2 ^ (w - 1) = 2 ^ w := Nat.two_pow_pred_add_two_pow_pred (by have := hc w hw; omega)
  have ha' := fits_iff.mp ha w hw
  have hb' := fits_iff.mp hb w hw
  simp only [wordMin, wordMax] at ha' hb'
  omega

/-- A word itself fits one bit more. -/
theorem fitsInfo_of_fits {c : Config} (hc : c.wf) {v : Int} (hv : fits c v = true) : fitsInfo c v := by
  simpa using fitsInfo_add hc hv (fits_zero hc)

/-- The number of a slot is at most 3, which fits one bit more than the least width of two (R120). -/
theorem fitsInfo_slotNum {c : Config} (hc : c.wf) (k : Slot) : fitsInfo c k.num := by
  intro w hw
  have hpow : 2 ^ 2 ≤ 2 ^ w := Nat.pow_le_pow_right (by decide) (hc w hw)
  have hk : k.num ≤ 3 := by cases k <;> decide
  omega

/-- The AddressErrors of a legal state have an info of at most one bit more than a word. -/
theorem Raises.info_fits (h : Raises u f) (hu : u.Legal) (hf : f.code = .addressError) : fitsInfo u.cfg f.info := by
  cases h with
  | slot k acc _ h =>
    rcases resolveAddr_error_address h with rfl | ⟨a, hcheck, ha⟩
    · exact fitsInfo_slotNum hu.cfg_wf k
    · rcases checkAddr_eq_error_iff.mp hcheck with ⟨hneg, rfl⟩ | ⟨-, -, rfl⟩
      · rcases ha with hpos | rfl | rfl
        · omega
        · exact fitsInfo_of_fits hu.cfg_wf (hu.get_fits _)
        · exact fitsInfo_add hu.cfg_wf hu.rb_fits (hu.get_fits _)
      · cases hf
  | target v hv hneg => exact fitsInfo_of_fits hu.cfg_wf (hu.readOperand_fits hv)
  | overflow => cases hf

/-- Settles O28: the record was clear before, so the AddressError is one the instruction raised, at a slot's number, a word, or the
sum of two words. -/
theorem faultInfoFitsOneMoreBit : Obligations.FaultInfoFitsOneMoreBit := by
  intro s t hs hrun h ht
  have hclear : s.fault.code ≠ .addressError := by simp [hs.fault_clear (by simp [hrun]), FaultRecord.clear]
  obtain ⟨m, f, hf, hcode, hinfo⟩ := step_addressError h hclear ht
  exact hinfo ▸ hf.info_fits (hs.latch m) hcode

end Sys2Proof.Machine
end

section
/-! SUPPORT. The host's operations on one Machine: what each leaves is legal and of the same hardware (R36, R241 to R258). -/

namespace Sys2Proof.Machine

variable {s t : State}

/-- The addresses of a program that fits the memory are addresses (R51, R242). -/
theorem inMemory_of_programFits {c : Config} {p : List Int} (h : programFits c p = true) {a : Nat} (ha : a < p.length) :
    inMemory c a = true := by
  unfold programFits at h
  unfold inMemory
  cases hm : c.memLimit with
  | none => rfl
  | some l =>
    simp only [hm, decide_eq_true_eq] at h ⊢
    omega

/-- A program of words that has at most `MEM_LIMIT` of them is loaded as a legal Machine (R36, R242). -/
theorem resetWith_ofProgram_legal {c : Config} {p : List Int} (hc : c.wf) (hp : ∀ v ∈ p, fits c v = true)
    (hl : programFits c p = true) : (State.resetWith c (Memory.ofProgram p)).Legal := by
  refine State.resetWith_legal hc (Memory.wf_ofProgram p) (fun d hd => ?_) fun d hd => ?_
  · obtain ⟨-, -, hmem, -⟩ := mem_cellsOfProgram hd
    exact hp _ hmem
  · obtain ⟨-, hlt, -, -⟩ := mem_cellsOfProgram hd
    exact inMemory_of_programFits hl (by simpa using hlt)

/-- construct answers the reset state around a program of words that fits the memory, and nothing else (R242). -/
theorem construct_eq_ok_iff {c : Config} {p : List Int} :
    construct c p = .ok s ↔
      (∀ v ∈ p, fits c v = true) ∧ programFits c p = true ∧ s = State.resetWith c (Memory.ofProgram p) := by
  unfold construct
  rw [← List.all_eq_true]
  cases p.all (fits c) <;> cases programFits c p <;> simp [eq_comm]

/-- A constructed Machine is legal and of its hardware (R242). -/
theorem construct_legal {c : Config} {p : List Int} (hc : c.wf) (h : construct c p = .ok s) : s.Legal ∧ s.cfg = c := by
  obtain ⟨hp, hl, rfl⟩ := construct_eq_ok_iff.mp h
  exact ⟨resetWith_ofProgram_legal hc hp hl, rfl⟩

/-- A rebooted Machine is legal and of the same hardware (R256, R321). -/
theorem reboot_legal {p : List Int} (hs : s.Legal) (h : reboot p s = .ok t) : t.Legal ∧ t.cfg = s.cfg :=
  construct_legal hs.cfg_wf h

/-- The host's address check passes exactly the addresses (R247, R248). -/
theorem hostAddr_eq_ok_iff {c : Config} {a : Int} {n : Nat} :
    hostAddr c a = .ok n ↔ a = (n : Int) ∧ inMemory c n = true := by
  unfold hostAddr
  split
  · simp only [reduceCtorEq, false_iff, not_and]
    omega
  · cases hm : inMemory c a.toNat
    · simp only [Bool.false_eq_true, if_false, reduceCtorEq, false_iff, not_and]
      rintro rfl
      simpa using hm
    · simp only [if_true, Except.ok.injEq]
      constructor
      · rintro rfl
        exact ⟨by omega, hm⟩
      · rintro ⟨rfl, -⟩
        rfl

/-- inject stores a word at an address, and nothing else (R247). -/
theorem inject_eq_ok_iff {a v : Int} :
    inject s a v = .ok t ↔ ∃ n : Nat, a = (n : Int) ∧ inMemory s.cfg n = true ∧ fits s.cfg v = true ∧
      t = { s with mem := s.mem.set n v } := by
  unfold inject
  cases ha : hostAddr s.cfg a with
  | error e =>
    simp only [bind, Except.bind, reduceCtorEq, false_iff, not_exists, not_and]
    intro n han hn
    exact absurd ((hostAddr_eq_ok_iff.mpr ⟨han, hn⟩).symm.trans ha) nofun
  | ok n =>
    obtain ⟨rfl, hn⟩ := hostAddr_eq_ok_iff.mp ha
    cases hv : fits s.cfg v with
    | false => simp [bind, Except.bind]
    | true =>
      simp only [bind, Except.bind, if_true, pure, Except.pure, Except.ok.injEq]
      constructor
      · rintro rfl
        exact ⟨n, rfl, hn, trivial, rfl⟩
      · rintro ⟨m, hm, -, -, rfl⟩
        rw [Int.ofNat.inj hm]

/-- inject keeps a legal Machine legal (R247). -/
theorem inject_legal {a v : Int} (hs : s.Legal) (h : inject s a v = .ok t) : t.Legal ∧ t.cfg = s.cfg := by
  obtain ⟨n, -, hn, hv, rfl⟩ := inject_eq_ok_iff.mp h
  exact ⟨hs.set_mem hn hv, rfl⟩

/-- extend_input keeps a legal Machine legal (R249). -/
theorem extendInput_legal {vs : List Int} (hs : s.Legal) (h : extendInput s vs = .ok t) : t.Legal ∧ t.cfg = s.cfg := by
  obtain ⟨hv, rfl⟩ := extendInput_eq_ok_iff.mp h
  exact ⟨hs.set_inq (List.forall_mem_append.mpr ⟨hs.inq_fits, hv⟩), rfl⟩

/-- A drain keeps two legal Machines of one hardware legal (R250). -/
theorem drainOutputInto_legal (hs : s.Legal) (ht : t.Legal) (hc : t.cfg = s.cfg) :
    (drainOutputInto s t).1.Legal ∧ (drainOutputInto s t).2.Legal :=
  ⟨hs.set_outlog (by simp), ht.set_inq (List.forall_mem_append.mpr ⟨ht.inq_fits, hc ▸ hs.outlog_fits⟩)⟩

/-- Settles O41: the empty program has only words and fits every memory. -/
theorem resetIsLegal : Obligations.ResetIsLegal := by
  have hwf : Config.standard.wf := fun w hw => by
    cases hw
    decide
  exact ⟨resetWith_ofProgram_legal (p := []) hwf (by simp) rfl, rfl⟩

/-- The four fields of a STATUS word, from the lowest bit (R29). -/
theorem statusLayout_fields (c : BitVec 2) (f : BitVec 3) (r : BitVec 2) :
    ((0 : BitVec 1) ++ c ++ f ++ r).extractLsb' 0 2 = r ∧ ((0 : BitVec 1) ++ c ++ f ++ r).extractLsb' 2 3 = f ∧
    ((0 : BitVec 1) ++ c ++ f ++ r).extractLsb' 5 2 = c ∧ ((0 : BitVec 1) ++ c ++ f ++ r).extractLsb' 7 1 = 0 := by
  refine ⟨BitVec.extractLsb'_append_eq_right, ?_, ?_, ?_⟩
  · rw [BitVec.extractLsb'_append_eq_of_le (by decide)]
    exact BitVec.extractLsb'_append_eq_right
  · rw [BitVec.extractLsb'_append_eq_of_le (by decide), BitVec.extractLsb'_append_eq_of_le (by decide)]
    exact BitVec.extractLsb'_append_eq_right
  · rw [BitVec.extractLsb'_append_eq_of_le (by decide), BitVec.extractLsb'_append_eq_of_le (by decide)]
    exact BitVec.extractLsb'_append_eq_left

/-- The status port has the indexes 0 to 3 only (R30, R254). -/
theorem readStatus_of_no_port (s : State) {k : Int} (hk : k < 0 ∨ 3 < k) : readStatus s k = .error .unknownPort := by
  unfold readStatus
  rw [if_neg (by omega), if_neg (by omega), if_neg (by omega), if_neg (by omega)]

/-- is_running() is true exactly for Running and Paused (R245). -/
theorem isRunning_iff (s : State) : isRunning s = true ↔ s.state = .running ∨ s.state = .paused := by
  unfold isRunning
  cases s.state <;> simp

/-- Settles O52: the STATUS word is four fields side by side, and the port has four indexes. -/
theorem statusReadingOutcomes : Obligations.StatusReadingOutcomes :=
  ⟨⟨rfl, rfl, rfl, rfl, rfl, rfl⟩, fun s => ⟨statusLayout_fields s.fault.cause.bits s.fault.code.bits s.state.bits,
    rfl, rfl, rfl, rfl, fun _ => readStatus_of_no_port s, isRunning_iff s⟩⟩

end Sys2Proof.Machine
end

section
/-! SUPPORT. What a command and a turn of a run can do to a session, said once (R38, R240), and what follows from it. -/

namespace Sys2Proof.Machine

open Claims

variable {h h' : Session} {cmd : HostCmd} {i : Nat} {s t : State}

/-- What a command that names one Machine makes of it, when it succeeds (R131, R247, R249, R256). -/
inductive HostChange : HostCmd → Nat → State → State → Prop where
  | reboot (i : Nat) (p : List Int) (s t : State) (ht : reboot p s = .ok t) : HostChange (.reboot i p) i s t
  | inject (i : Nat) (a v : Int) (s t : State) (ht : inject s a v = .ok t) : HostChange (.inject i a v) i s t
  | extendInput (i : Nat) (vs : List Int) (s t : State) (ht : extendInput s vs = .ok t) :
      HostChange (.extendInput i vs) i s t
  | run (i : Nat) (s : State) : HostChange (.run i) i s s
  | resume (i : Nat) (s : State) : HostChange (.resume i) i s s.wake

/-- What a command can make of a session: nothing, one more Machine, one Machine changed, with a run of it begun or not, or two
Machines changed by a drain. -/
inductive Session.Issues (h : Session) : HostCmd → Session → Prop where
  | nothing (cmd : HostCmd) : Issues h cmd h
  | construct (p : List Int) (s : State) (hs : construct h.cfg p = .ok s) : Issues h (.construct p) (h.make s).1
  | clone (i : Nat) (s : State) (hs : h.machines[i]? = some s) : Issues h (.clone i) (h.make s).1
  | change (cmd : HostCmd) (i : Nat) (s t : State) (hs : h.machines[i]? = some s) (ht : HostChange cmd i s t) :
      Issues h cmd (h.put i t)
  | begin (cmd : HostCmd) (i : Nat) (s t : State) (hs : h.machines[i]? = some s) (ht : HostChange cmd i s t) :
      Issues h cmd { h.put i t with active := some i }
  | drain (i j : Nat) (s t : State) (hs : h.machines[i]? = some s) (ht : h.machines[j]? = some t) :
      Issues h (.drainOutputInto i j) ((h.put i (drainOutputInto s t).1).put j (drainOutputInto s t).2)

/-- A query leaves the session (R241). -/
theorem Session.query_fst (h : Session) (i : Nat) (op : State → Except HostError HostReply) : (h.query i op).1 = h := by
  unfold Session.query
  split
  · rfl
  · split <;> rfl

/-- An update by an operation of the command. -/
theorem Session.update_issues {op : State → Except HostError State}
    (hop : ∀ s t, op s = .ok t → HostChange cmd i s t) : h.Issues cmd (h.update i op).1 := by
  unfold Session.update
  split
  · exact .nothing cmd
  · split
    · exact .nothing cmd
    · exact .change cmd i _ _ ‹_› (hop _ _ ‹_›)

/-- A run begun by run or resume (R130, R131). -/
theorem Session.begin_issues {prepare : State → State} (hop : ∀ s, HostChange cmd i s (prepare s)) :
    h.Issues cmd (h.begin i prepare).1 := by
  unfold Session.begin
  split
  · exact .nothing cmd
  · exact .begin cmd i _ _ ‹_› (hop _)

/-- A drain, or its refusal (R250). -/
theorem Session.drain_issues (h : Session) (i j : Nat) : h.Issues (.drainOutputInto i j) (h.drain i j).1 := by
  unfold Session.drain
  split
  · split
    · exact .nothing _
    · exact .drain i j _ _ ‹_› ‹_›
  · exact .nothing _

/-- What a command does while no run is in progress. -/
theorem Session.transact_issues (h : Session) (cmd : HostCmd) : h.Issues cmd (h.transact cmd).1 := by
  cases cmd with
  | construct p =>
    simp only [Session.transact]
    split
    · exact .nothing _
    · exact .construct p _ ‹_›
  | reboot i p => exact update_issues fun s t => .reboot i p s t
  | run i => exact begin_issues (.run i)
  | resume i => exact begin_issues (.resume i)
  | inject i a v => exact update_issues fun s t => .inject i a v s t
  | extendInput i vs => exact update_issues fun s t => .extendInput i vs s t
  | drainOutputInto i j => exact drain_issues h i j
  | isRunning | read | lastOutput | dumpOutput | readStatus =>
    exact (query_fst h _ _).symm ▸ .nothing _
  | clone i =>
    simp only [Session.transact]
    split
    · exact .nothing _
    · exact .clone i _ ‹_›

/-- What a command does to a session, at any time (R240). -/
theorem Session.issue_issues (h : Session) (cmd : HostCmd) : h.Issues cmd (h.issue cmd).1 := by
  unfold Session.issue
  split
  · exact .nothing cmd
  · exact transact_issues h cmd

/-- What a turn of a run can do: nothing, end the run, or one step of its Machine (R129, R240). -/
theorem Session.tick_cases (h : Session) :
    h.tick.1 = h ∨ h.tick.1 = { h with active := none } ∨
      ∃ i s t, h.active = some i ∧ h.machines[i]? = some s ∧ step s = .next t ∧ h.tick.1 = h.put i t := by
  cases ha : h.active with
  | none => exact .inl (by simp [Session.tick, ha])
  | some i =>
    cases hm : h.machines[i]? with
    | none => exact .inr (.inl (by simp [Session.tick, ha, hm]))
    | some s =>
      by_cases hs : s.state = .running
      · cases ht : step s with
        | next t => exact .inr (.inr ⟨i, s, t, rfl, hm, ht, by simp [Session.tick, ha, hm, hs, ht]⟩)
        | fault | refused => exact .inl (by simp [Session.tick, ha, hm, hs, ht])
      · exact .inr (.inl (by simp [Session.tick, ha, hm, hs]))

/-! ### Which Machines change (R38) -/

/-- The Machine a command changes is one it names. -/
theorem HostChange.mem_touched (hc : HostChange cmd i s t) : i ∈ touched cmd := by
  cases hc <;> exact List.mem_singleton.mpr rfl

/-- Replacing a Machine leaves every other one. -/
theorem Session.put_getElem?_ne (h : Session) {i k : Nat} (hne : i ≠ k) (s : State) :
    (h.put i s).machines[k]? = h.machines[k]? :=
  List.getElem?_set_ne hne

/-- Replacing a Machine leaves their number. -/
@[simp] theorem Session.put_length (h : Session) (i : Nat) (s : State) : (h.put i s).machines.length = h.machines.length :=
  List.length_set

/-- A new Machine leaves every earlier one. -/
theorem Session.make_getElem?_lt (h : Session) {k : Nat} (hk : k < h.machines.length) (s : State) :
    (h.make s).1.machines[k]? = h.machines[k]? :=
  List.getElem?_append_left hk

/-- A command leaves every Machine it does not name. -/
theorem Session.Issues.getElem?_of_not_touched (hc : h.Issues cmd h') {k : Nat} (hk : k < h.machines.length)
    (hn : k ∉ touched cmd) : h'.machines[k]? = h.machines[k]? := by
  have hne : ∀ {i}, i ∈ touched cmd → i ≠ k := fun hi hik => hn (hik ▸ hi)
  cases hc with
  | nothing => rfl
  | construct p s hs => exact h.make_getElem?_lt hk s
  | clone i s hs => exact h.make_getElem?_lt hk s
  | change _ i s t hs ht => exact h.put_getElem?_ne (hne ht.mem_touched) t
  | begin _ i s t hs ht => exact h.put_getElem?_ne (hne ht.mem_touched) t
  | drain i j s t hs ht =>
    rw [put_getElem?_ne _ (hne (by simp [touched])), put_getElem?_ne _ (hne (by simp [touched]))]

/-- No command removes a Machine. -/
theorem Session.Issues.length_le (hc : h.Issues cmd h') : h.machines.length ≤ h'.machines.length := by
  cases hc with
  | nothing => exact le_rfl
  | construct | clone => simp [Session.make]
  | change | begin | drain => simp

/-- Settles O56: a command changes the Machines of its own replacements, which it names, and a turn the Machine it steps. -/
theorem machinesAreIsolated : Obligations.MachinesAreIsolated := by
  refine ⟨fun h cmd k hk hn => (h.issue_issues cmd).getElem?_of_not_touched hk hn, fun h k hne => ?_,
    fun h cmd => (h.issue_issues cmd).length_le⟩
  rcases h.tick_cases with heq | heq | ⟨i, s, t, hi, -, -, heq⟩
  · rw [heq]
  · rw [heq]
  · rw [heq]
    exact h.put_getElem?_ne (fun hik : i = k => hne (hik ▸ hi)) t

/-! ### Legal sessions -/

/-- A Machine of a legal session is legal and of the session's hardware. -/
theorem Session.Legal.of_getElem? (hh : h.Legal) (hs : h.machines[i]? = some s) : s.Legal ∧ s.cfg = h.cfg :=
  hh.machines s (List.mem_of_getElem? hs)

/-- Replacing a Machine by a legal one of the session's hardware. -/
theorem Session.Legal.put (hh : h.Legal) (i : Nat) (hs : s.Legal ∧ s.cfg = h.cfg) : (h.put i s).Legal where
  cfg_wf := hh.cfg_wf
  machines u hu := by
    rcases List.mem_or_eq_of_mem_set hu with hu | rfl
    · exact hh.machines u hu
    · exact hs
  active j hj := by simpa using hh.active j hj

/-- A new Machine of the session's hardware. -/
theorem Session.Legal.make (hh : h.Legal) (hs : s.Legal ∧ s.cfg = h.cfg) : (h.make s).1.Legal where
  cfg_wf := hh.cfg_wf
  machines u hu := by
    rcases List.mem_append.mp hu with hu | hu
    · exact hh.machines u hu
    · exact List.mem_singleton.mp hu ▸ hs
  active j hj := by
    have hlt : j < h.machines.length := hh.active j hj
    simp only [Session.make, List.length_append]
    omega

/-- A run of one of the session's Machines, or none, in progress. -/
theorem Session.Legal.set_active (hh : h.Legal) {a : Option Nat} (ha : ∀ j ∈ a, j < h.machines.length) :
    { h with active := a }.Legal :=
  { hh with active := ha }

/-- What a command makes of a legal Machine is legal and of the same hardware. -/
theorem HostChange.legal (hc : HostChange cmd i s t) (hs : s.Legal) : t.Legal ∧ t.cfg = s.cfg := by
  cases hc with
  | reboot _ p _ _ ht => exact reboot_legal hs ht
  | inject _ a v _ _ ht => exact inject_legal hs ht
  | extendInput _ vs _ _ ht => exact extendInput_legal hs ht
  | run => exact ⟨hs, rfl⟩
  | resume => exact ⟨hs.wake, s.wake_cfg⟩

/-- Every command keeps a legal session legal. -/
theorem Session.Issues.legal (hc : h.Issues cmd h') (hh : h.Legal) : h'.Legal := by
  have changed : ∀ {cmd i s t}, h.machines[i]? = some s → HostChange cmd i s t → (h.put i t).Legal := by
    intro cmd i s t hs ht
    obtain ⟨hleg, hcfg⟩ := hh.of_getElem? hs
    obtain ⟨hleg', hcfg'⟩ := ht.legal hleg
    exact hh.put i ⟨hleg', hcfg'.trans hcfg⟩
  cases hc with
  | nothing => exact hh
  | construct p s hs => exact hh.make (construct_legal hh.cfg_wf hs)
  | clone i s hs => exact hh.make (hh.of_getElem? hs)
  | change _ i s t hs ht => exact changed hs ht
  | begin _ i s t hs ht =>
    refine (changed hs ht).set_active fun j hj => ?_
    cases hj
    simpa using (List.getElem?_eq_some_iff.mp hs).1
  | drain i j s t hs ht =>
    obtain ⟨hleg, hcfg⟩ := hh.of_getElem? hs
    obtain ⟨hleg', hcfg'⟩ := hh.of_getElem? ht
    obtain ⟨hsource, htarget⟩ := drainOutputInto_legal hleg hleg' (hcfg'.trans hcfg.symm)
    exact (hh.put i ⟨hsource, hcfg⟩).put j ⟨htarget, hcfg'⟩

/-- The session before any Machine is made is legal. -/
theorem Session.start_legal {c : Config} (hc : c.wf) : (Session.start c).Legal where
  cfg_wf := hc
  machines := by simp [Session.start]
  active := by simp [Session.start]

/-- Settles O43: each change a command or a turn can make replaces or adds Machines that are legal and of the session's hardware. -/
theorem sessionStaysLegal : Obligations.SessionStaysLegal := by
  refine ⟨fun c hc => Session.start_legal hc, fun h cmd hh => (h.issue_issues cmd).legal hh, fun h hh => ?_⟩
  rcases h.tick_cases with heq | heq | ⟨i, s, t, -, hs, ht, heq⟩
  · rwa [heq]
  · rw [heq]
    exact hh.set_active (by simp)
  · obtain ⟨hleg, hcfg⟩ := hh.of_getElem? hs
    rw [heq]
    exact hh.put i ⟨stepKeepsLegal s t hleg ht, (step_cfg ht).trans hcfg⟩

end Sys2Proof.Machine
end

section
/-! SUPPORT. `MemRead` and `MemWrite` at every integer (R52, R53). -/

namespace Sys2Proof.Machine

variable {s : State}

/-- Below 0 the address check raises NegativeAddress (R52, R53). -/
theorem checkAddr_of_neg {c : Config} {a : Int} (h : a < 0) : checkAddr c a = .error (.negativeAddress a) :=
  checkAddr_eq_error_iff.mpr (.inl ⟨h, rfl⟩)

/-- At or above `MEM_LIMIT` the address check raises CapacityExceeded (R52, R53). -/
theorem checkAddr_of_not_inMemory {c : Config} {a : Int} (h : 0 ≤ a) (hm : inMemory c a.toNat = false) :
    checkAddr c a = .error (.capacityExceeded a) :=
  checkAddr_eq_error_iff.mpr (.inr ⟨h, hm, rfl⟩)

/-- `MemWrite` fails as its address check does (R53). -/
theorem memWrite_eq_error_iff {a v : Int} {f : Fault} : memWrite s a v = .error f ↔ checkAddr s.cfg a = .error f := by
  unfold memWrite
  cases checkAddr s.cfg a <;> simp [bind, Except.bind, pure, Except.pure]

/-- Settles O11: the write fails as its address check does; at an address it sets one cell of the canonical tape. -/
theorem memWriteAnswers : Obligations.MemWriteAnswers := by
  intro s a v hwf
  refine ⟨fun h => memWrite_eq_error_iff.mpr (checkAddr_of_neg h),
    fun h hm => memWrite_eq_error_iff.mpr (checkAddr_of_not_inMemory h hm), fun h hm => ?_⟩
  obtain ⟨n, rfl⟩ := Int.eq_ofNat_of_zero_le h
  exact ⟨s.mem.set n v, memWrite_natCast hm, Memory.wf_set hwf n v, Memory.get_set hwf n v⟩

/-- Settles O10: the read fails as its address check does, and at an address it gives the cell. -/
theorem memReadAnswers : Obligations.MemReadAnswers := fun _ _ =>
  ⟨fun h => memRead_eq_error_iff.mpr (checkAddr_of_neg h),
    fun h hm => memRead_eq_error_iff.mpr (checkAddr_of_not_inMemory h hm),
    fun h hm => memRead_eq_ok_iff.mpr ⟨_, (Int.toNat_of_nonneg h).symm, hm, rfl⟩⟩

end Sys2Proof.Machine
end

section
/-! SUPPORT. An instruction by its opcode, and the converse of `exec_next_cases`: what an instruction can commit, it does commit. -/

namespace Sys2Proof.Machine

variable {i : Instr} {s t u : State}

/-- The handler an opcode selects (R114), so that a proof about an instruction takes its opcode and not its constructor. The last line
is HALT: an instruction has no other opcode (R83). -/
def handlerOfOpcode : Nat → State → Except Fault State
  | 1 => binaryHandler fun c a b => checked c (a + b)
  | 2 => binaryHandler fun c a b => checked c (a * b)
  | 3 => inputHandler
  | 4 => outputHandler
  | 5 => jumpHandler fun a => isNonZero a
  | 6 => jumpHandler fun a => !isNonZero a
  | 7 => binaryHandler fun _ a b => .ok (boolWord (decide (a < b)))
  | 8 => binaryHandler fun _ a b => .ok (boolWord (decide (a = b)))
  | 9 => rebaseHandler
  | _ => haltHandler

/-- An instruction runs the handler of its opcode with its modes latched (R113, R114). -/
theorem exec_eq_runHandler (i : Instr) (s : State) :
    exec i s = runHandler i.modes s (handlerOfOpcode i.opcode) := by
  cases i <;> rfl

/-- The handler of an instruction's opcode does what the instruction commits (R127). -/
theorem Commits.handler_eq_ok (h : Commits i u t) : handlerOfOpcode i.opcode u = .ok t := by
  cases h with
  | store a b d r hi ha hb hd hr =>
    rcases hr with ⟨ho, rfl, hf⟩ | ⟨ho, rfl, hf⟩ | ⟨ho, rfl⟩ | ⟨ho, rfl⟩ <;>
      simp only [ho, handlerOfOpcode] <;> refine binaryHandler_eq_ok_iff.mpr ⟨a, b, d, _, ha, hb, hd, ?_, rfl⟩
    · exact checked_eq_ok_iff.mpr ⟨hf, rfl⟩
    · exact checked_eq_ok_iff.mpr ⟨hf, rfl⟩
    · rfl
    · rfl
  | pop v rest d hi hd hq =>
    rw [hi]
    exact inputHandler_eq_ok_iff.mpr ⟨d, hd, .inr ⟨v, rest, hq, rfl⟩⟩
  | pause d hi hd hq =>
    rw [hi]
    exact inputHandler_eq_ok_iff.mpr ⟨d, hd, .inl ⟨hq, rfl⟩⟩
  | emit a hi ha =>
    rw [hi]
    exact outputHandler_eq_ok_iff.mpr ⟨a, ha, rfl⟩
  | jump a v hi ha hv h0 =>
    rcases hi with ⟨ho, hz⟩ | ⟨ho, hz⟩ <;> rw [ho] <;>
      exact jumpHandler_eq_ok_iff.mpr ⟨a, v, ha, hv, .inl ⟨by simp [isNonZero, hz], h0, rfl⟩⟩
  | fall a v hi ha hv =>
    rcases hi with ⟨ho, hz⟩ | ⟨ho, hz⟩ <;> rw [ho] <;>
      exact jumpHandler_eq_ok_iff.mpr ⟨a, v, ha, hv, .inr ⟨by simp [isNonZero, hz], rfl⟩⟩
  | rebase a hi ha hf =>
    rw [hi]
    exact rebaseHandler_eq_ok_iff.mpr ⟨a, ha, hf, rfl⟩
  | halt hi =>
    rw [hi]
    rfl

/-- What an instruction can commit is its next state (R127). -/
theorem Commits.exec_eq_next (h : Commits i (s.latch i.modes) t) : exec i s = .next t := by
  rw [exec_eq_runHandler]
  exact runHandler_of_ok h.handler_eq_ok

/-- The opcodes of format RRW (R82, R83). -/
theorem format_eq_RRW_iff : i.format = .RRW ↔ i.opcode ∈ [1, 2, 7, 8] := by
  cases i <;> simp [Instr.format, Instr.opcode]

/-- The word a compare stores (R200, R205). -/
theorem boolWord_decide (p : Prop) [Decidable p] : boolWord (decide p) = if p then 1 else 0 := by
  simp [boolWord]

/-- A read of the cell that was set last gives its word (R52, R53, R65). -/
theorem memRead_of_mem_eq_set {n : Nat} {v : Int} (hwf : s.mem.wf) (hn : inMemory s.cfg n = true) (hc : t.cfg = s.cfg)
    (hm : t.mem = s.mem.set n v) : memRead t n = .ok v := by
  rw [memRead_natCast (hc ▸ hn), hm, Memory.get_set hwf, if_pos rfl]

/-- Settles O39: each store commits, or is injected, at the address where `ip` then stands, and the fetch reads that cell. -/
theorem fetchSeesEarlierStores : Obligations.FetchSeesEarlierStores := by
  refine ⟨fun s i a b r hwf ha hb hd hr => ?_, fun s m1 m2 m3 v rest hwf hq hd => ?_, fun s t v hwf h => ?_⟩
  · simp only [← boolWord_decide] at hr
    have hop : i.opcode ∈ [1, 2, 7, 8] := by
      rcases hr with ⟨ho, -⟩ | ⟨ho, -⟩ | ⟨ho, -⟩ | ⟨ho, -⟩ <;> simp [ho]
    have hc := Commits.store a b _ r (format_eq_RRW_iff.mpr hop) ha hb hd hr
    have hin := resolveAddr_inMemory hd
    exact ⟨_, hc.exec_eq_next, rfl, memRead_of_mem_eq_set hwf hin rfl rfl⟩
  · have hc := Commits.pop (i := .inp m1 m2 m3) v rest _ rfl hd hq
    have hin := resolveAddr_inMemory hd
    exact ⟨_, hc.exec_eq_next, rfl, memRead_of_mem_eq_set hwf hin rfl rfl⟩
  · obtain ⟨n, hn, hin, -, rfl⟩ := inject_eq_ok_iff.mp h
    obtain rfl : s.ip = n := Int.ofNat.inj hn
    exact ⟨rfl, memRead_of_mem_eq_set hwf hin rfl rfl⟩

end Sys2Proof.Machine
end

section
/-! SUPPORT. The decoder and the encoder, said once: which words decode, to what, and why a word is rejected (R81 to R89, R112,
R113). -/

namespace Sys2Proof

/-- A mode digit is 0, 1 or 2 (R85). -/
theorem Mode.digit_lt_three (m : Mode) : m.digit < 3 := by
  cases m <;> decide

/-- Each mode is read back from its own digit (R85, R113). -/
theorem modeOfDigit_eq_some_iff {d : Nat} {m : Mode} : modeOfDigit d = some m ↔ d = m.digit := by
  constructor
  · intro h
    unfold modeOfDigit at h
    split at h <;> cases h <;> rfl
  · rintro rfl
    cases m <;> rfl

/-- The digits without a mode (R87, R113). -/
theorem modeOfDigit_eq_none_iff {d : Nat} : modeOfDigit d = none ↔ 3 ≤ d := by
  match d with
  | 0 | 1 | 2 => decide
  | d + 3 => exact iff_of_true rfl (by omega)

/-- The modes of a word are those of its digits of weight 100, 1000 and 10000 (R113). -/
theorem modesOfWord_eq_some_iff {n : Nat} {m : Modes} :
    modesOfWord n = some m ↔ digit n 2 = m.m1.digit ∧ digit n 3 = m.m2.digit ∧ digit n 4 = m.m3.digit := by
  obtain ⟨m1, m2, m3⟩ := m
  simp [modesOfWord, Option.bind_eq_some_iff, modeOfDigit_eq_some_iff]

/-- A word has no modes when one of its mode digits is 3 to 9 (R87, R113). -/
theorem modesOfWord_eq_none_iff {n : Nat} : modesOfWord n = none ↔ 3 ≤ digit n 2 ∨ 3 ≤ digit n 3 ∨ 3 ≤ digit n 4 := by
  simp only [← modeOfDigit_eq_none_iff, modesOfWord]
  cases modeOfDigit (digit n 2) <;> cases modeOfDigit (digit n 3) <;> cases modeOfDigit (digit n 4) <;> simp

/-- An opcode and modes select the one instruction that has both (R83). -/
theorem instrOfOpcode_eq_some_iff {op : Nat} {m : Modes} {i : Instr} :
    instrOfOpcode op m = some i ↔ op = i.opcode ∧ m = i.modes := by
  constructor
  · intro h
    unfold instrOfOpcode at h
    split at h <;> cases h <;> exact ⟨rfl, rfl⟩
  · rintro ⟨rfl, rfl⟩
    cases i <;> rfl

/-- Every instruction's opcode is recognised (R83, R112). -/
theorem Instr.opcode_mem_opSet (i : Instr) : i.opcode ∈ opSet := by
  cases i <;> simp [Instr.opcode, opSet]

/-- Every recognised opcode selects an instruction (R83, R112). -/
theorem exists_instrOfOpcode {op : Nat} (h : op ∈ opSet) (m : Modes) : ∃ i, instrOfOpcode op m = some i := by
  simp only [opSet, List.mem_cons, List.not_mem_nil, or_false] at h
  rcases h with rfl | rfl | rfl | rfl | rfl | rfl | rfl | rfl | rfl | rfl <;> exact ⟨_, rfl⟩

/-- A word is an instruction's word when it has that opcode, those mode digits and no further digit (R81). -/
theorem eq_encode_iff {n : Nat} {i : Instr} :
    (n : Int) = encode i ↔ n < 100000 ∧ n % 100 = i.opcode ∧ modesOfWord n = some i.modes := by
  have h1 := i.modes.m1.digit_lt_three
  have h2 := i.modes.m2.digit_lt_three
  have h3 := i.modes.m3.digit_lt_three
  have hop : i.opcode < 100 := (by decide : ∀ op ∈ opSet, op < 100) _ i.opcode_mem_opSet
  rw [modesOfWord_eq_some_iff, encode, Int.ofNat_inj]
  simp only [digit, Nat.reducePow]
  omega

/-- A negative word is no instruction (R112). -/
theorem decodeWord_of_neg {w : Int} (h : w < 0) : decodeWord w = .error .invalidOpcode :=
  if_pos h

/-- A word that is not negative and has no recognised opcode (R112). -/
theorem decodeWord_of_opcode_not_mem {n : Nat} (h : n % 100 ∉ opSet) : decodeWord n = .error .invalidOpcode := by
  simp [decodeWord, h]

/-- A word of a recognised opcode with a sixth digit or without modes (R113). -/
theorem decodeWord_of_modes {n : Nat} (hop : n % 100 ∈ opSet) (h : 100000 ≤ n ∨ modesOfWord n = none) :
    decodeWord n = .error .invalidMode := by
  rcases h with h | h <;> simp [decodeWord, hop, h]

/-- The word of an instruction decodes to it (R81, R83). -/
theorem decodeWord_encode (i : Instr) : decodeWord (encode i) = .ok i := by
  obtain ⟨n, hn⟩ : ∃ n : Nat, (n : Int) = encode i := ⟨_, rfl⟩
  obtain ⟨hlen, hop, hm⟩ := eq_encode_iff.mp hn
  rw [← hn]
  simp [decodeWord, not_lt.mpr (Int.natCast_nonneg n), not_le.mpr hlen, hop, hm, i.opcode_mem_opSet,
    instrOfOpcode_eq_some_iff.mpr ⟨rfl, rfl⟩]

/-- A word that is not negative is rejected for its opcode, rejected for its modes, or is an instruction's word (R86, R87, R89). -/
theorem natCast_word_cases (n : Nat) :
    n % 100 ∉ opSet ∨ (n % 100 ∈ opSet ∧ (100000 ≤ n ∨ modesOfWord n = none)) ∨ ∃ i, (n : Int) = encode i := by
  by_cases hop : n % 100 ∈ opSet
  · refine .inr ?_
    by_cases hlen : 100000 ≤ n
    · exact .inl ⟨hop, .inl hlen⟩
    · cases hm : modesOfWord n with
      | none => exact .inl ⟨hop, .inr rfl⟩
      | some m =>
        obtain ⟨i, hi⟩ := exists_instrOfOpcode hop m
        obtain ⟨hopc, rfl⟩ := instrOfOpcode_eq_some_iff.mp hi
        exact .inr ⟨i, eq_encode_iff.mpr ⟨by omega, hopc, hm⟩⟩
  · exact .inl hop

/-- A word that is not negative is rejected as an illegal opcode exactly for its opcode (R86). -/
theorem decodeWord_natCast_eq_invalidOpcode_iff {n : Nat} : decodeWord n = .error .invalidOpcode ↔ n % 100 ∉ opSet := by
  refine ⟨fun h => ?_, decodeWord_of_opcode_not_mem⟩
  rcases natCast_word_cases n with hop | ⟨hop, hm⟩ | ⟨i, hi⟩
  · exact hop
  · simp [decodeWord_of_modes hop hm] at h
  · simp [hi, decodeWord_encode] at h

/-- A word that is not negative is rejected as an illegal mode encoding exactly when it has a recognised opcode and a sixth digit or
no modes (R87). -/
theorem decodeWord_natCast_eq_invalidMode_iff {n : Nat} :
    decodeWord n = .error .invalidMode ↔ n % 100 ∈ opSet ∧ (100000 ≤ n ∨ modesOfWord n = none) := by
  refine ⟨fun h => ?_, fun ⟨hop, hm⟩ => decodeWord_of_modes hop hm⟩
  rcases natCast_word_cases n with hop | hrej | ⟨i, hi⟩
  · simp [decodeWord_of_opcode_not_mem hop] at h
  · exact hrej
  · simp [hi, decodeWord_encode] at h

/-- No word decodes to an instruction but its own (R81, R89). -/
theorem encode_eq_of_decodeWord {w : Int} {i : Instr} (h : decodeWord w = .ok i) : encode i = w := by
  rcases lt_or_ge w 0 with hneg | hpos
  · simp [decodeWord_of_neg hneg] at h
  · obtain ⟨n, rfl⟩ := Int.eq_ofNat_of_zero_le hpos
    rcases natCast_word_cases n with hop | ⟨hop, hm⟩ | ⟨j, hj⟩
    · simp [decodeWord_of_opcode_not_mem hop] at h
    · simp [decodeWord_of_modes hop hm] at h
    · rw [hj, decodeWord_encode] at h
      cases h
      exact hj.symm

/-- Settles O1: the opcode and the mode digits of an instruction's word are those it was made of, and every word that is not rejected
is such a word. -/
theorem decodeEncodeInverse : Obligations.DecodeEncodeInverse :=
  ⟨decodeWord_encode, fun _ _ => encode_eq_of_decodeWord⟩

/-- Settles O2: the decoder runs on each of the ten words. -/
theorem sampleWordsDecode : Obligations.SampleWordsDecode :=
  ⟨rfl, rfl, rfl, rfl, rfl, rfl, rfl, rfl, rfl, rfl⟩

end Sys2Proof
end

section
/-! SUPPORT. The illegal words in the spec's own terms, over the integers, and the step that fetches one (R86, R87). -/

namespace Sys2Proof.Machine

open Claims

/-- The opcodes as the spec lists them, for a word that is not negative (R86, R112). -/
theorem natCast_emod_mem_opcodes_iff {n : Nat} :
    (n : Int) % 100 ∈ ([1, 2, 3, 4, 5, 6, 7, 8, 9, 99] : List Int) ↔ n % 100 ∈ opSet := by
  simp only [opSet, List.mem_cons, List.not_mem_nil, or_false]
  omega

/-- A Running Machine takes the fault of a rejected word, with nothing committed and the word recorded (R112, R113, R290). -/
theorem step_of_decodeWord_error {s : State} {r : DecodeReject} (hs : s.state = .running) (hm : inMemory s.cfg s.ip = true)
    (hd : decodeWord (s.mem.get s.ip) = .error r) :
    step s = .next (faultTaken s s.modes (s.mem.get s.ip) (faultOfReject r)) := by
  rw [step_of_running hs]
  rcases fetchInstr_cases s with ⟨i, -, -, hi⟩ | ⟨r', hf, -, hr⟩ | ⟨-, hout⟩
  · simp [hd] at hi
  · rw [hd] at hr
    cases hr
    rw [hf]
    rfl
  · simp [hm] at hout

/-- Settles O3: a negative word has no opcode, and any other is rejected for its remainder by 100; the fetch raises the fault. -/
theorem illegalOpcodeFaults : Obligations.IllegalOpcodeFaults := by
  refine ⟨fun w => ?_, fun s => step_of_decodeWord_error⟩
  rcases lt_or_ge w 0 with hneg | hpos
  · exact iff_of_true (decodeWord_of_neg hneg) (.inl hneg)
  · obtain ⟨n, rfl⟩ := Int.eq_ofNat_of_zero_le hpos
    rw [decodeWord_natCast_eq_invalidOpcode_iff, natCast_emod_mem_opcodes_iff, and_iff_right hpos,
      or_iff_right (not_lt.mpr hpos)]

/-- Settles O4: a word that is not negative is rejected for its modes when it has an opcode and a digit without a mode, or a sixth
digit; the fetch raises the fault. -/
theorem illegalModeFaults : Obligations.IllegalModeFaults := by
  refine ⟨fun w => ?_, fun s => step_of_decodeWord_error⟩
  rcases lt_or_ge w 0 with hneg | hpos
  · exact iff_of_false (by simp [decodeWord_of_neg hneg]) (by omega)
  · obtain ⟨n, rfl⟩ := Int.eq_ofNat_of_zero_le hpos
    rw [decodeWord_natCast_eq_invalidMode_iff, modesOfWord_eq_none_iff, natCast_emod_mem_opcodes_iff, and_iff_right hpos]
    refine and_congr_right fun _ => ?_
    simp only [digit, Nat.reducePow]
    omega

end Sys2Proof.Machine
end

section
/-! SUPPORT. What an instruction disassembles to assembles to (R92, R94, R97). -/

namespace Sys2Proof.Machine

variable {i : Instr}

/-- An instruction is one cell for its word and one per slot of its format (R80, R82). -/
theorem exists_len_eq_succ (i : Instr) : ∃ n ≤ 3, i.len = n + 1 := by
  cases i <;> exact ⟨_, by decide, rfl⟩

/-- The canonical encoding writes 0 for a slot the format lacks (R92). -/
theorem modes_of_eq_position (h : i.canonical = true) {k : Slot} (hk : i.len ≤ k.num) : i.modes.of k = .position := by
  cases i <;> cases k <;> simp_all [Instr.canonical, Instr.len, Instr.format, Format.len, Slot.num, Instr.modes, Modes.of]

/-- The slots of a format of `n` slots are numbered 1 to `n` (R16, R80). -/
theorem slotsOf_map_num {n : Nat} (h : n ≤ 3) : (slotsOf n).map Slot.num = (List.range n).map Nat.succ := by
  match n with
  | 0 | 1 | 2 | 3 => rfl

/-- An instruction has one cell more than its format has slots (R80, R82). -/
theorem length_slotsOf_len (i : Instr) : (slotsOf (i.len - 1)).length + 1 = i.len := by
  cases i <;> rfl

/-- Operands written slot by slot have the modes they were written with, where every other slot's mode is 0 (R92, R94). -/
theorem modesOfOperands_slotsOf {n : Nat} {m : Modes} (val : Slot → AsmVal) (hn : n ≤ 3)
    (h : ∀ k : Slot, n < k.num → m.of k = .position) :
    modesOfOperands ((slotsOf n).map fun k => ⟨m.of k, val k⟩) = m := by
  obtain ⟨m1, m2, m3⟩ := m
  have h1 := h .one
  have h2 := h .two
  have h3 := h .three
  match n with
  | 0 | 1 | 2 | 3 => simp_all [slotsOf, modesOfOperands, Slot.num, Modes.of]

/-- Literals place their words (R94). -/
theorem asmVals_map_lit (table : List (AsmName × Nat)) (ws : List Int) : asmVals table (ws.map .lit) = some ws := by
  induction ws with
  | nil => rfl
  | cons w ws ih => simp [asmVals, AsmVal.word, ih]

/-- A canonical instruction without an immediate write slot is the one its opcode and its operands name (R92, R94). -/
theorem asmInstr_slotsOf (hwf : i.wellFormed = true) (hcan : i.canonical = true) (val : Slot → AsmVal) :
    asmInstr i.opcode ((slotsOf (i.len - 1)).map fun k => ⟨i.modes.of k, val k⟩) = some i := by
  obtain ⟨n, hn, hlen⟩ := exists_len_eq_succ i
  have hmodes := modesOfOperands_slotsOf (n := i.len - 1) val (by omega) fun k hk =>
    modes_of_eq_position hcan (by omega)
  simp [asmInstr, hmodes, instrOfOpcode_eq_some_iff.mpr ⟨rfl, rfl⟩, length_slotsOf_len, hwf]

/-- The words of an instruction in a tape: its instruction word, then the cell of each slot (R80). -/
theorem map_range_len (i : Instr) (g : Nat → Int) :
    (List.range i.len).map g = g 0 :: (slotsOf (i.len - 1)).map fun k => g k.num := by
  obtain ⟨n, hn, hlen⟩ := exists_len_eq_succ i
  have hslots := congrArg (List.map g) (slotsOf_map_num hn)
  rw [List.map_map, List.map_map] at hslots
  rw [hlen, List.range_succ_eq_map, List.map_cons, List.map_map, ← hslots]
  rfl

/-- An instruction with its operands as literals places its word and theirs (R80, R81, R94). -/
theorem emit_instr (hwf : i.wellFormed = true) (hcan : i.canonical = true) (table : List (AsmName × Nat)) (g : Slot → Int) :
    (AsmStmt.instr i.opcode ((slotsOf (i.len - 1)).map fun k => ⟨i.modes.of k, .lit (g k)⟩)).emit table =
      some (encode i :: (slotsOf (i.len - 1)).map g) := by
  have hvals := asmVals_map_lit table ((slotsOf (i.len - 1)).map g)
  rw [List.map_map, Function.comp_def] at hvals
  simp [AsmStmt.emit, AsmStmt.expand, asmInstr_slotsOf hwf hcan, Function.comp_def, hvals, encodeWords,
    length_slotsOf_len]

/-- Settles O60: the operands carry the modes and the parameters of the slots, so the instruction read from them is the decoded
one, whose word is the cell's. -/
theorem disassemblyAssemblesBack : Obligations.DisassemblyAssemblesBack := by
  refine ⟨fun m a i table hd hwf hcan => ?_, fun m a r table hd => ?_⟩
  · rw [disassembleAt, hd, map_range_len i fun k => m.get (a + k), Nat.add_zero, ← encode_eq_of_decodeWord hd]
    exact emit_instr hwf hcan table fun k => m.get (a + k.num)
  · rw [disassembleAt, hd]
    rfl

end Sys2Proof.Machine
end

section
/-! SUPPORT. Fetch, decode and the step of a Running Machine (R110 to R114), and the pointer over an instruction (R126, R128). -/

namespace Sys2Proof.Machine

open Claims

variable {i : Instr} {s t u : State}

/-- Settles O6: the fetch answers the decoded instruction, and the step is `exec` of it. -/
theorem stepRunsDecodedInstruction : Obligations.StepRunsDecodedInstruction := by
  intro s i hs hin hdec
  rw [step_of_running hs, fetchInstr_eq_ok_iff.mpr ⟨hin, hdec⟩]

/-- Settles O7: a fetch answers an instruction, which ends in a next state, or the Faulted state. -/
theorem everyStepAnswersNext : Obligations.EveryStepAnswersNext := by
  refine ⟨fun s => ?_, exec_is_next⟩
  by_cases hs : s.state = .running
  · rw [step_of_running hs]
    cases fetchInstr s with
    | ok i => exact exec_is_next i s
    | error t => exact ⟨t, rfl⟩
  · exact ⟨s, step_of_not_running hs⟩

/-- A fetch at or above `MEM_LIMIT` takes CapacityExceeded and records the word 0 (R111). -/
theorem step_of_not_inMemory (hs : s.state = .running) (hout : inMemory s.cfg s.ip = false) :
    step s = .next (faultTaken s s.modes 0 (.capacityExceeded s.ip)) := by
  rw [step_of_running hs]
  rcases fetchInstr_cases s with ⟨-, -, hin, -⟩ | ⟨-, -, hin, -⟩ | ⟨hfetch, -⟩
  · simp [hout] at hin
  · simp [hout] at hin
  · rw [hfetch]
    rfl

/-- Settles O9: the fetch fails at the limit, and the word 0 has no opcode. -/
theorem fetchOutsideProgramFaults : Obligations.FetchOutsideProgramFaults := by
  refine ⟨fun s => step_of_not_inMemory, fun s hs hin hzero => ?_⟩
  have hdec : decodeWord (s.mem.get s.ip) = .error .invalidOpcode := by
    rw [hzero]
    rfl
  have hstep := step_of_decodeWord_error hs hin hdec
  rw [hzero] at hstep
  exact hstep

/-- A commit that leaves `ip` is of HALT, of an IN that pauses, or of a taken jump to `ip` itself (R128). -/
theorem Commits.cases_of_ip_eq (h : Commits i u t) (hip : t.ip = u.ip) :
    t.state = .halted ∨ (t.state = .paused ∧ u.inq = []) ∨
      ∃ a : Int, readOperand u .one = .ok a ∧ readOperand u .two = .ok (u.ip : Int) ∧
        (i.opcode = 5 ∧ a ≠ 0 ∨ i.opcode = 6 ∧ a = 0) := by
  cases h with
  | halt hi => exact .inl rfl
  | pause d hi hd hq => exact .inr (.inl ⟨rfl, hq⟩)
  | jump a v hi ha hv h0 =>
    have htarget : v = (u.ip : Int) := hip ▸ (Int.toNat_of_nonneg h0).symm
    exact .inr (.inr ⟨a, ha, htarget ▸ hv, hi⟩)
  | store | pop | emit | fall | rebase => simp at hip

/-- Opcode 5 is JT. -/
theorem eq_jt_of_opcode (h : i.opcode = 5) : i = .jt i.modes.m1 i.modes.m2 i.modes.m3 :=
  instr_eq_of_opcode_modes h rfl

/-- Opcode 6 is JF. -/
theorem eq_jf_of_opcode (h : i.opcode = 6) : i = .jf i.modes.m1 i.modes.m2 i.modes.m3 :=
  instr_eq_of_opcode_modes h rfl

/-- Settles O37: a step of a Running Machine is a fault taken or a commit, and the commits that leave `ip` are known. -/
theorem stepMakesProgress : Obligations.StepMakesProgress := by
  intro s t hs h hip
  rcases step_next_cases h with ⟨hne, -⟩ | ⟨-, i, -, hdec, -, hc⟩ | ⟨-, m, w, f, -, rfl⟩
  · exact absurd hs hne
  · rcases hc.cases_of_ip_eq hip with hhalt | hpause | ⟨a, ha, hv, hop⟩
    · exact .inr (.inl hhalt)
    · exact .inr (.inr (.inl hpause))
    · have hjump := hop.imp (And.imp_left fun h5 => eq_jt_of_opcode h5 ▸ hdec)
        (And.imp_left fun h6 => eq_jf_of_opcode h6 ▸ hdec)
      exact .inr (.inr (.inr ⟨_, _, _, a, ha, hv, hjump⟩))
  · exact .inl rfl

/-- IN, OUT and ARB occupy two cells (R82, R83). -/
theorem len_eq_two_of_opcode (h : i.opcode ∈ [3, 4, 9]) : i.len = 2 := by
  cases i <;> simp_all [Instr.opcode, Instr.len, Instr.format, Format.len]

/-- JT and JF are the instructions of format RR (R82, R83). -/
theorem format_eq_RR_of_opcode (h : i.opcode = 5 ∨ i.opcode = 6) : i.format = .RR := by
  cases i <;> simp_all [Instr.opcode, Instr.format]

/-- A commit that is no jump and leaves the Machine Running advances by the instruction's length (R126). -/
theorem Commits.ip_eq_add_len (h : Commits i u t) (ht : t.state = .running) (hf : i.format ≠ .RR) :
    t.ip = u.ip + i.len := by
  have two : i.opcode ∈ [3, 4, 9] → u.ip + 2 = u.ip + i.len := fun hi => by rw [len_eq_two_of_opcode hi]
  cases h with
  | store a b d r hi ha hb hd hr => rw [Instr.len, hi]; rfl
  | pop v rest d hi hd hq => exact two (by simp [hi])
  | emit a hi ha => exact two (by simp [hi])
  | rebase a hi ha hfit => exact two (by simp [hi])
  | jump a v hi ha hv h0 => exact absurd (format_eq_RR_of_opcode (hi.imp And.left And.left)) hf
  | fall a v hi ha hv => exact absurd (format_eq_RR_of_opcode (hi.imp And.left And.left)) hf
  | pause | halt => cases ht

/-- Settles O38: the Machine is Running after it, so the instruction took no fault and what it committed is no pause and no halt. -/
theorem advanceIsInstructionLength : Obligations.AdvanceIsInstructionLength := by
  intro i s t _ h ht hf
  rcases exec_next_cases h with hc | ⟨f, rfl⟩
  · exact hc.ip_eq_add_len ht hf
  · cases ht

end Sys2Proof.Machine
end

section
/-! SUPPORT. The resolver mode by mode, the read operand, and the range check (R117 to R124). -/

namespace Sys2Proof.Machine

variable {s : State} {k : Slot} {acc : Access}

/-- An immediate write slot is a contract violation (R120). -/
theorem resolveAddr_immediate_write (hm : s.modes.of k = .immediate) :
    resolveAddr s k .write = .error (.immediateWrite k) := by
  simp [resolveAddr, hm]

/-- An immediate read resolves to the cell of its parameter, checked (R119). -/
theorem resolveAddr_immediate_read (hm : s.modes.of k = .immediate) :
    resolveAddr s k .read = checkAddr s.cfg ((s.ip + k.num : Nat) : Int) := by
  simp [resolveAddr, hm]

/-- In position and relative mode the parameter is read, and the address it gives is checked (R117, R118). -/
theorem resolveAddr_eq_checkAddr {a : Int}
    (hm : s.modes.of k = .position ∧ a = s.mem.get (s.ip + k.num) ∨
      s.modes.of k = .relative ∧ a = s.rb + s.mem.get (s.ip + k.num))
    (hin : inMemory s.cfg (s.ip + k.num) = true) : resolveAddr s k acc = checkAddr s.cfg a := by
  rcases hm with ⟨hm, rfl⟩ | ⟨hm, rfl⟩ <;>
    simp only [resolveAddr, hm, memRead_natCast hin, bind, Except.bind]

/-- A parameter at or above `MEM_LIMIT` raises CapacityExceeded, unless the slot is an immediate write (R117, R120). -/
theorem resolveAddr_of_not_inMemory (hr : s.modes.of k = .immediate → acc = .read)
    (hout : inMemory s.cfg (s.ip + k.num) = false) :
    resolveAddr s k acc = .error (.capacityExceeded (s.ip + k.num : Nat)) := by
  have hcheck : checkAddr s.cfg ((s.ip + k.num : Nat) : Int) = .error (.capacityExceeded (s.ip + k.num : Nat)) :=
    checkAddr_of_not_inMemory (Int.natCast_nonneg _) hout
  cases hm : s.modes.of k with
  | immediate =>
    obtain rfl := hr hm
    rw [resolveAddr_immediate_read hm, hcheck]
  | position | relative =>
    simp only [resolveAddr, hm, memRead_eq_error_iff.mpr hcheck, bind, Except.bind]

/-- Settles O13: an immediate slot has its own rule; any other slot is the check of its parameter's cell, then of the address. -/
theorem resolverAnswers : Obligations.ResolverAnswers := by
  intro s k acc
  refine ⟨?_, ?_, resolveAddr_of_not_inMemory, fun a hm hin => ?_⟩
  · rintro hm rfl
    exact resolveAddr_immediate_write hm
  · rintro hm rfl hin
    rw [resolveAddr_immediate_read hm, checkAddr_natCast hin]
  · rw [resolveAddr_eq_checkAddr hm hin]
    exact ⟨checkAddr_of_neg, checkAddr_of_not_inMemory,
      fun h0 ha => checkAddr_eq_ok_iff.mpr ⟨(Int.toNat_of_nonneg h0).symm, ha⟩⟩

/-- Settles O14: an operand is read where its slot resolves to, and an immediate slot resolves to its parameter's cell. -/
theorem operandIsWordAtResolvedAddress : Obligations.OperandIsWordAtResolvedAddress := by
  have hread : ∀ {s : State} {k : Slot} {a : Nat}, resolveAddr s k .read = .ok a → readOperand s k = .ok (s.mem.get a) :=
    fun h => readOperand_eq_ok_iff.mpr ⟨_, h, rfl⟩
  intro s k
  refine ⟨fun a => hread, fun f => readOperand_eq_error_iff.mpr, fun hm hin => hread ?_⟩
  rw [resolveAddr_immediate_read hm, checkAddr_natCast hin]

/-- Settles O15: the check is membership in the range of the width (`fits_iff`). -/
theorem checkedAnswers : Obligations.CheckedAnswers := by
  intro c v
  refine ⟨fun hc => ?_, fun w hc => ⟨fun hmin hmax => ?_, fun hout => ?_⟩⟩
  · exact checked_eq_ok_iff.mpr ⟨fits_iff.mpr (by simp [hc]), rfl⟩
  · exact checked_eq_ok_iff.mpr ⟨fits_iff.mpr (by simp [hc, hmin, hmax]), rfl⟩
  · have hfit : ¬ fits c v = true := fun hfit => by
      obtain ⟨hmin, hmax⟩ := fits_iff.mp hfit w hc
      omega
    exact checked_eq_error_iff.mpr ⟨by simpa using hfit, rfl⟩

end Sys2Proof.Machine
end

section
/-! SUPPORT. The mode digits of slots a format lacks (R92, R115): a handler looks at the modes of its format's slots only, and passes
the latch through. -/

namespace Sys2Proof.Machine

variable {i : Instr} {s t u : State} {m : Modes} {k : Slot}

/-- A slot resolves alike under two latches that agree on it (R117). -/
theorem resolveAddr_latch (h : u.modes.of k = m.of k) (acc : Access) : resolveAddr (u.latch m) k acc = resolveAddr u k acc :=
  resolveAddr_congr (s := u.latch m) (t := u) rfl rfl rfl rfl h.symm acc

/-- A read operand likewise (R122). -/
theorem readOperand_latch (h : u.modes.of k = m.of k) : readOperand (u.latch m) k = readOperand u k :=
  readOperand_congr (s := u.latch m) (t := u) rfl rfl rfl rfl h.symm

/-- `MemWrite` passes the latch through. -/
theorem memWrite_latch (u : State) (m : Modes) (a v : Int) : memWrite (u.latch m) a v = (·.latch m) <$> memWrite u a v := by
  simp only [memWrite, State.latch_cfg]
  cases checkAddr u.cfg a <;> rfl

/-- A jump passes the latch through. -/
theorem jumpTo_latch (u : State) (m : Modes) (v : Int) : jumpTo (u.latch m) v = (·.latch m) <$> jumpTo u v := by
  unfold jumpTo
  split <;> rfl

/-- The latch and the pointer are separate fields. -/
theorem State.advance_latch (u : State) (m : Modes) (n : Nat) : (u.latch m).advance n = (u.advance n).latch m := rfl

/-- Format RRW under another latch that agrees on its three slots. -/
theorem binaryHandler_latch {alu : Config → Int → Int → Except Fault Int} (h1 : u.modes.of .one = m.of .one)
    (h2 : u.modes.of .two = m.of .two) (h3 : u.modes.of .three = m.of .three) :
    binaryHandler alu (u.latch m) = (·.latch m) <$> binaryHandler alu u := by
  simp [binaryHandler, readOperand_latch h1, readOperand_latch h2, resolveAddr_latch h3, memWrite_latch, State.advance_latch]

/-- Format RR under another latch that agrees on its two slots. -/
theorem jumpHandler_latch {taken : Int → Bool} (h1 : u.modes.of .one = m.of .one) (h2 : u.modes.of .two = m.of .two) :
    jumpHandler taken (u.latch m) = (·.latch m) <$> jumpHandler taken u := by
  simp [jumpHandler, readOperand_latch h1, readOperand_latch h2, jumpTo_latch, State.advance_latch, apply_ite]

/-- IN under another latch that agrees on its slot. -/
theorem inputHandler_latch (h1 : u.modes.of .one = m.of .one) :
    inputHandler (u.latch m) = (·.latch m) <$> inputHandler u := by
  have hw (q : List Int) (d v : Int) :
      memWrite { u.latch m with inq := q } d v = (·.latch m) <$> memWrite { u with inq := q } d v :=
    memWrite_latch { u with inq := q } m d v
  simp only [inputHandler, resolveAddr_latch h1, State.latch_inq, hw, map_bind]
  cases u.inq with
  | nil => rfl
  | cons v rest => simp [State.advance_latch]

/-- OUT under another latch that agrees on its slot. -/
theorem outputHandler_latch (h1 : u.modes.of .one = m.of .one) :
    outputHandler (u.latch m) = (·.latch m) <$> outputHandler u := by
  simp only [outputHandler, readOperand_latch h1, map_bind]
  rfl

/-- ARB under another latch that agrees on its slot. -/
theorem rebaseHandler_latch (h1 : u.modes.of .one = m.of .one) :
    rebaseHandler (u.latch m) = (·.latch m) <$> rebaseHandler u := by
  simp only [rebaseHandler, readOperand_latch h1, map_bind]
  rfl

/-- An instruction's handler under another latch that agrees on the slots its format has (R115). -/
theorem handlerOfOpcode_latch (h : ∀ k : Slot, k.num < i.len → u.modes.of k = m.of k) :
    handlerOfOpcode i.opcode (u.latch m) = (·.latch m) <$> handlerOfOpcode i.opcode u := by
  cases i with
  | add | mul | lt | eq =>
    simp only [Instr.opcode, handlerOfOpcode]
    exact binaryHandler_latch (h .one (by decide : 1 < 4)) (h .two (by decide : 2 < 4)) (h .three (by decide : 3 < 4))
  | jt | jf => exact jumpHandler_latch (h .one (by decide : 1 < 3)) (h .two (by decide : 2 < 3))
  | inp => exact inputHandler_latch (h .one (by decide : 1 < 2))
  | out => exact outputHandler_latch (h .one (by decide : 1 < 2))
  | arb => exact rebaseHandler_latch (h .one (by decide : 1 < 2))
  | halt => rfl

/-- Handlers that differ in the latch only run to next states that differ in the latch only. -/
theorem runHandler_latch {m m' : Modes} {handler : State → Except Fault State}
    (hh : handler (s.latch m') = (·.latch m') <$> handler (s.latch m)) (h : runHandler m s handler = .next t) :
    runHandler m' s handler = .next (t.latch m') := by
  rcases runHandler_eq_next_iff.mp h with hok | ⟨f, herr, rfl⟩
  · exact runHandler_of_ok (by rw [hh, hok]; rfl)
  · exact runHandler_of_error (by rw [hh, herr]; rfl)

/-- Settles O5: both instructions run the handler of one opcode, which looks at the slots of its format only. -/
theorem unusedModeDigitsIgnored : Obligations.UnusedModeDigitsIgnored := by
  intro i j s t hop hmodes h
  rw [exec_eq_runHandler] at h ⊢
  rw [← hop]
  exact runHandler_latch (handlerOfOpcode_latch (u := s.latch i.modes) hmodes) h

end Sys2Proof.Machine
end

section
/-! SUPPORT. The run loop with and without fuel, and `run` (R129, R130, R132). -/

namespace Sys2Proof.Machine

variable {s t u : State}

/-- The loop returns a Machine that is not Running as it is, under any fuel (R130). -/
theorem runLoop_of_not_running (h : s.state ≠ .running) (fuel : Nat) : runLoop fuel s = some s := by
  cases fuel <;> simp [runLoop, h]

/-- The loop of a Running Machine is a step and the loop from there (R129). -/
theorem runLoop_succ_of_running (h : s.state = .running) (hstep : step s = .next t) (fuel : Nat) :
    runLoop (fuel + 1) s = runLoop fuel t := by
  simp [runLoop, h, hstep]

/-- A loop without fuel does not return a Running Machine (R129). -/
theorem not_running_of_runLoop_zero (h : runLoop 0 s = some t) : s.state ≠ .running := fun hs => by
  simp [runLoop, hs] at h

/-- A loop that returns has returned a Machine that was not Running, or has stepped a Running one (R129). -/
theorem runLoop_succ_state_cases {fuel : Nat} (h : runLoop (fuel + 1) s = some t) :
    (s.state ≠ .running ∧ t = s) ∨ (s.state = .running ∧ ∃ u, step s = .next u ∧ runLoop fuel u = some t) := by
  by_cases hs : s.state = .running
  · exact .inr ⟨hs, (runLoop_succ_cases h).resolve_left fun hstop => hstop.1 hs⟩
  · rw [runLoop_of_not_running hs] at h
    exact .inl ⟨hs, (Option.some.inj h).symm⟩

/-- More fuel does not change what the loop returns (R129, R132). -/
theorem runLoop_add {fuel : Nat} (h : runLoop fuel s = some t) (more : Nat) : runLoop (fuel + more) s = some t := by
  induction fuel generalizing s with
  | zero =>
    rw [runLoop_zero_eq_some h]
    exact runLoop_of_not_running (not_running_of_runLoop_zero h) _
  | succ fuel ih =>
    rcases runLoop_succ_state_cases h with ⟨hs, rfl⟩ | ⟨hs, u, hstep, hrest⟩
    · exact runLoop_of_not_running hs _
    · rw [Nat.succ_add, runLoop_succ_of_running hs hstep]
      exact ih hrest

/-- The loop without fuel returns no Running Machine (R129). -/
theorem RunsTo.not_running (h : RunsTo s t) : t.state ≠ .running := by
  induction h with
  | exit s h => exact h
  | more s t u h hs ht ih => exact ih

/-- What the loop without fuel returns, the loop returns under some fuel (R129). -/
theorem RunsTo.exists_fuel (h : RunsTo s t) : ∃ fuel, runLoop fuel s = some t := by
  induction h with
  | exit s h => exact ⟨0, runLoop_of_not_running h 0⟩
  | more s t u h hs ht ih =>
    obtain ⟨fuel, hrest⟩ := ih
    exact ⟨fuel + 1, (runLoop_succ_of_running h hs fuel).trans hrest⟩

/-- What the loop returns under some fuel, the loop without fuel returns (R129). -/
theorem RunsTo.of_runLoop {fuel : Nat} (h : runLoop fuel s = some t) : RunsTo s t := by
  induction fuel generalizing s with
  | zero =>
    rw [runLoop_zero_eq_some h]
    exact .exit s (not_running_of_runLoop_zero h)
  | succ fuel ih =>
    rcases runLoop_succ_state_cases h with ⟨hs, rfl⟩ | ⟨hs, u, hstep, hrest⟩
    · exact .exit t hs
    · exact .more s u t hs hstep (ih hrest)

/-- The loop without fuel returns one state only: the two fuels, put together, return both. -/
theorem RunsTo.unique (ht : RunsTo s t) (hu : RunsTo s u) : u = t := by
  obtain ⟨fuel, ht⟩ := ht.exists_fuel
  obtain ⟨fuel', hu⟩ := hu.exists_fuel
  have hboth := runLoop_add hu fuel
  rw [Nat.add_comm, runLoop_add ht fuel'] at hboth
  exact (Option.some.inj hboth).symm

/-- Settles O44, by induction on the fuel and on the loop without fuel. -/
theorem fuelledLoopIsRunLoop : Obligations.FuelledLoopIsRunLoop :=
  ⟨fun _ _ => ⟨RunsTo.exists_fuel, fun ⟨_, h⟩ => .of_runLoop h⟩, fun _ more _ _ h => runLoop_add h more,
    fun _ _ h => ⟨h.not_running, fun _ => h.unique⟩⟩

/-- Settles O8: `run` is the loop with its report, and the loop returns a stopped Machine at once. -/
theorem runOnStoppedMachineDoesNothing : Obligations.RunOnStoppedMachineDoesNothing := by
  refine ⟨fun fuel s => rfl, fun fuel s hs => ?_⟩
  rw [run, runLoop_of_not_running hs]
  rfl

end Sys2Proof.Machine
end

section
/-! SUPPORT. A command that names a Machine, and a turn of its run, as the operation on that Machine (R129, R240 to R256). -/

namespace Sys2Proof.Machine

open Claims

variable {h : Session} {i : Nat} {s t : State}

/-- With no run in progress a command is served (R240). -/
theorem Session.issue_of_idle (ha : h.active = none) (cmd : HostCmd) : h.issue cmd = h.transact cmd := by
  simp [Session.issue, ha]

/-- An update of a Machine is its operation's answer, put in place (R241). -/
theorem Session.update_eq_changed (hm : h.machines[i]? = some s) (op : State → Except HostError State) :
    h.update i op = changed h i (op s) := by
  simp only [Session.update, hm]
  cases op s <;> rfl

/-- A query of a Machine is its operation's answer (R241). -/
theorem Session.query_eq_answered (hm : h.machines[i]? = some s) (op : State → Except HostError HostReply) :
    h.query i op = answered h (op s) := by
  simp only [Session.query, hm]
  cases op s <;> rfl

/-- A construct adds its Machine (R242). -/
theorem Session.transact_construct (h : Session) (p : List Int) :
    h.transact (.construct p) = created h (construct h.cfg p) := by
  simp only [Session.transact]
  cases construct h.cfg p <;> rfl

/-- A run begins on the prepared Machine (R130, R131). -/
theorem Session.begin_eq (hm : h.machines[i]? = some s) (prepare : State → State) :
    h.begin i prepare = ({ h with machines := h.machines.set i (prepare s), active := some i }, .begun) := by
  simp only [Session.begin, hm]
  rfl

/-- A turn of a run whose Machine is Running is one step of it (R129). -/
theorem Session.tick_of_running (ha : h.active = some i) (hm : h.machines[i]? = some s) (hs : s.state = .running)
    (hstep : step s = .next t) : h.tick = (h.put i t, none) := by
  simp [Session.tick, ha, hm, hs, hstep]

/-- A turn of a run whose Machine is not Running ends it with the exit report (R129, R243). -/
theorem Session.tick_of_not_running (ha : h.active = some i) (hm : h.machines[i]? = some s) (hs : s.state ≠ .running) :
    h.tick = ({ h with active := none }, some (exitReport s)) := by
  simp [Session.tick, ha, hm, hs]

/-- Settles O55: each command, and a turn of a run, is the operation on the Machine it finds. -/
theorem runInProgressReturnsExitReport : Obligations.RunInProgressReturnsExitReport := by
  refine ⟨fun h i s ha hm => ⟨fun hs => ?_, Session.tick_of_not_running ha hm⟩,
    fun h p ha => (h.issue_of_idle ha _).trans (h.transact_construct p), fun h i s ha hm => ?_⟩
  · obtain ⟨t, hstep⟩ := everyStepAnswersNext.1 s
    exact ⟨t, hstep, Session.tick_of_running ha hm hs hstep⟩
  · simp only [Session.issue_of_idle ha]
    refine ⟨?_, h.begin_eq hm State.wake, fun p => h.update_eq_changed hm _, fun a v => h.update_eq_changed hm _,
      fun vs => h.update_eq_changed hm _, fun a => h.query_eq_answered hm _, fun k => h.query_eq_answered hm _,
      h.query_eq_answered hm _, h.query_eq_answered hm _,
      h.query_eq_answered hm fun s => .ok (.truth (isRunning s))⟩
    obtain ⟨_, rfl⟩ := List.getElem?_eq_some_iff.mp hm
    refine (h.begin_eq hm id).trans ?_
    rw [id, List.set_getElem_self]

end Sys2Proof.Machine
end

section
/-! SUPPORT. Format RRW, outcome by outcome (R116, R123, R125): a fault of each slot in slot order, a fault of the ALU, the commit; and
from them ADD and MUL (R140, R145) and the frame of the four instructions of the format. -/

namespace Sys2Proof.Machine

open Claims

variable {alu : Config → Int → Int → Except Fault Int} {m : Modes} {i : Instr} {s t u : State} {a b r : Int} {d : Nat} {f : Fault}

/-- A fault of the first slot is the instruction's, before any other check (R125). -/
theorem runBinary_of_one_error (h1 : readOperand (s.latch m) .one = .error f) :
    runHandler m s (binaryHandler alu) = instrFault s m f := by
  refine runHandler_of_error ?_
  rw [binaryHandler, h1]
  rfl

/-- A fault of the second slot is the instruction's when the first is read (R125). -/
theorem runBinary_of_two_error (h1 : readOperand (s.latch m) .one = .ok a) (h2 : readOperand (s.latch m) .two = .error f) :
    runHandler m s (binaryHandler alu) = instrFault s m f := by
  refine runHandler_of_error ?_
  rw [binaryHandler, h1, h2]
  rfl

/-- A fault of the destination is the instruction's when both operands are read (R123, R125). -/
theorem runBinary_of_three_error (h1 : readOperand (s.latch m) .one = .ok a) (h2 : readOperand (s.latch m) .two = .ok b)
    (h3 : resolveAddr (s.latch m) .three .write = .error f) :
    runHandler m s (binaryHandler alu) = instrFault s m f := by
  refine runHandler_of_error ?_
  rw [binaryHandler, h1, h2, h3]
  rfl

/-- A fault of the ALU is the instruction's when no slot faults (R125). -/
theorem runBinary_of_alu_error (h1 : readOperand (s.latch m) .one = .ok a) (h2 : readOperand (s.latch m) .two = .ok b)
    (h3 : resolveAddr (s.latch m) .three .write = .ok d) (hr : alu s.cfg a b = .error f) :
    runHandler m s (binaryHandler alu) = instrFault s m f := by
  refine runHandler_of_error ?_
  rw [binaryHandler, h1, h2, h3, State.latch_cfg]
  simp only [bind, Except.bind, hr]

/-- With no fault the ALU's result goes to the destination and `ip` advances by 4 (R116). -/
theorem runBinary_of_ok (h1 : readOperand (s.latch m) .one = .ok a) (h2 : readOperand (s.latch m) .two = .ok b)
    (h3 : resolveAddr (s.latch m) .three .write = .ok d) (hr : alu s.cfg a b = .ok r) :
    runHandler m s (binaryHandler alu) = .next { s with modes := m, mem := s.mem.set d r, ip := s.ip + 4 } :=
  runHandler_of_ok (binaryHandler_eq_ok_iff.mpr ⟨a, b, d, r, h1, h2, h3, hr, rfl⟩)

/-- Settles O16: ADD is format RRW with the checked sum as its ALU. -/
theorem addOutcomes : Obligations.AddOutcomes := by
  intro s m1 m2 m3
  simp only [exec_add]
  exact ⟨⟨rfl, rfl⟩, fun _ => runBinary_of_one_error, fun _ _ => runBinary_of_two_error, fun _ _ _ => runBinary_of_three_error,
    fun _ _ _ h1 h2 h3 hf => runBinary_of_alu_error h1 h2 h3 (checked_eq_error_iff.mpr ⟨hf, rfl⟩),
    fun _ _ _ h1 h2 h3 hf => runBinary_of_ok h1 h2 h3 (checked_eq_ok_iff.mpr ⟨hf, rfl⟩)⟩

/-- Settles O17: MUL is format RRW with the checked product as its ALU. -/
theorem mulOutcomes : Obligations.MulOutcomes := by
  intro s m1 m2 m3
  simp only [exec_mul]
  exact ⟨⟨rfl, rfl⟩, fun _ => runBinary_of_one_error, fun _ _ => runBinary_of_two_error, fun _ _ _ => runBinary_of_three_error,
    fun _ _ _ h1 h2 h3 hf => runBinary_of_alu_error h1 h2 h3 (checked_eq_error_iff.mpr ⟨hf, rfl⟩),
    fun _ _ _ h1 h2 h3 hf => runBinary_of_ok h1 h2 h3 (checked_eq_ok_iff.mpr ⟨hf, rfl⟩)⟩

/-- What an instruction of format RRW commits is a store in the cell of slot 3 and the advance (R116, R123). -/
theorem Commits.store_of_RRW (h : Commits i u t) (hi : i.format = .RRW) :
    ∃ d r, resolveAddr u .three .write = .ok d ∧ t = { u with mem := u.mem.set d r, ip := u.ip + 4 } := by
  have hop : i.opcode ∈ [1, 2, 7, 8] := format_eq_RRW_iff.mp hi
  cases h with
  | store a b d r _ ha hb hd hr => exact ⟨d, r, hd, rfl⟩
  | jump _ _ ho | fall _ _ ho => rcases ho with ⟨ho, -⟩ | ⟨ho, -⟩ <;> simp [ho] at hop
  | pop _ _ _ ho | pause _ ho | emit _ ho | rebase _ ho | halt ho => simp [ho] at hop

/-- Settles O29: the next state is a store in the cell of slot 3, which then resolves, or a fault taken. -/
theorem storingInstructionsFrame : Obligations.StoringInstructionsFrame := by
  intro i s t hi hwf h
  rcases exec_next_cases h with hc | ⟨f, rfl⟩
  · obtain ⟨d, r, hd, rfl⟩ := hc.store_of_RRW hi
    refine ⟨rfl, rfl, rfl, rfl, .inl ⟨rfl, rfl⟩, fun d' hd' a ha => ?_, fun f hf => ?_⟩
    · obtain rfl : d = d' := Except.ok.inj (hd.symm.trans hd')
      exact (Memory.get_set hwf d r a).trans (if_neg ha)
    · cases hd.symm.trans hf
  · exact ⟨rfl, rfl, rfl, rfl, .inr ⟨rfl, rfl, rfl⟩, fun _ _ _ _ => rfl, fun _ _ => rfl⟩

end Sys2Proof.Machine
end

section
/-! SUPPORT. The word width and a run (R124, R150): only `Checked` looks at WORD_BITS, so at a greater width every step that takes no
Overflow does the same. -/

namespace Sys2Proof.Machine

open Claims

variable {i : Instr} {s t u : State} {w : Option Nat}

@[simp] theorem withWidth_ip (s : State) (w : Option Nat) : (withWidth s w).ip = s.ip := rfl
@[simp] theorem withWidth_rb (s : State) (w : Option Nat) : (withWidth s w).rb = s.rb := rfl
@[simp] theorem withWidth_inq (s : State) (w : Option Nat) : (withWidth s w).inq = s.inq := rfl
@[simp] theorem withWidth_state (s : State) (w : Option Nat) : (withWidth s w).state = s.state := rfl

/-- Every word of the configuration is a word at the width `w` (R10). -/
def Widens (c : Config) (w : Option Nat) : Prop :=
  ∀ v : Int, fits c v = true → fits { c with wordBits := w } v = true

/-- The words of a width are words of every greater one and of INF (R9, R10). -/
theorem widens_of_le {c : Config} {n : Nat} (hc : c.wordBits = some n) (hw : ∀ k ∈ w, n ≤ k) : Widens c w := by
  intro v hv
  refine fits_iff.mpr fun k hk => ?_
  obtain ⟨hmin, hmax⟩ := fits_iff.mp hv n hc
  have hpow : 2 ^ (n - 1) ≤ 2 ^ (k - 1) := Nat.pow_le_pow_right (by omega) (Nat.sub_le_sub_right (hw k hk) 1)
  simp only [wordMin, wordMax] at hmin hmax ⊢
  omega

/-- `Checked` overflows, or answers alike at the greater width (R124). -/
theorem checked_withWidth (hw : Widens u.cfg w) (v : Int) :
    checked u.cfg v = .error .overflow ∨ checked (withWidth u w).cfg v = checked u.cfg v := by
  cases hv : fits u.cfg v with
  | false => exact .inl (checked_eq_error_iff.mpr ⟨hv, rfl⟩)
  | true =>
    have hwide : checked (withWidth u w).cfg v = .ok v := checked_eq_ok_iff.mpr ⟨hw v hv, rfl⟩
    exact .inr (hwide.trans (checked_eq_ok_iff.mpr ⟨hv, rfl⟩).symm)

/-- A slot resolves alike at every width (R121). -/
theorem resolveAddr_withWidth (u : State) (w : Option Nat) (k : Slot) (acc : Access) :
    resolveAddr (withWidth u w) k acc = resolveAddr u k acc :=
  resolveAddr_congr (s := withWidth u w) (t := u) rfl rfl rfl rfl rfl acc

/-- A read operand likewise (R122). -/
theorem readOperand_withWidth (u : State) (w : Option Nat) (k : Slot) : readOperand (withWidth u w) k = readOperand u k :=
  readOperand_congr (s := withWidth u w) (t := u) rfl rfl rfl rfl rfl

/-- `MemRead` likewise (R52). -/
theorem memRead_withWidth (u : State) (w : Option Nat) (a : Int) : memRead (withWidth u w) a = memRead u a := by
  rw [memRead, checkAddr_congr (c := (withWidth u w).cfg) (d := u.cfg) rfl]
  rfl

/-- `MemWrite` makes no range check and passes the width through (R53). -/
theorem memWrite_withWidth (u : State) (w : Option Nat) (a v : Int) :
    memWrite (withWidth u w) a v = (withWidth · w) <$> memWrite u a v := by
  rw [memWrite, memWrite, checkAddr_congr (c := (withWidth u w).cfg) (d := u.cfg) rfl]
  cases checkAddr u.cfg a <;> rfl

/-- Format RRW overflows, or does the same at the greater width, when its ALU does. -/
theorem binaryHandler_withWidth {alu : Config → Int → Int → Except Fault Int}
    (halu : ∀ a b, alu u.cfg a b = .error .overflow ∨ alu (withWidth u w).cfg a b = alu u.cfg a b) :
    binaryHandler alu u = .error .overflow ∨
      binaryHandler alu (withWidth u w) = (withWidth · w) <$> binaryHandler alu u := by
  simp only [binaryHandler, readOperand_withWidth, resolveAddr_withWidth, memWrite_withWidth]
  cases readOperand u .one with
  | error f => exact .inr rfl
  | ok a =>
    cases readOperand u .two with
    | error f => exact .inr rfl
    | ok b =>
      cases resolveAddr u .three .write with
      | error f => exact .inr rfl
      | ok d =>
        simp only [bind, Except.bind]
        rcases halu a b with h | h
        · exact .inl (by rw [h])
        · rw [h]
          cases alu u.cfg a b with
          | error f => exact .inr rfl
          | ok r =>
            dsimp only
            cases memWrite u d r <;> exact .inr rfl

/-- ARB overflows, or does the same at the greater width (R220). -/
theorem rebaseHandler_withWidth (hw : Widens u.cfg w) :
    rebaseHandler u = .error .overflow ∨ rebaseHandler (withWidth u w) = (withWidth · w) <$> rebaseHandler u := by
  simp only [rebaseHandler, readOperand_withWidth]
  cases readOperand u .one with
  | error f => exact .inr rfl
  | ok a =>
    simp only [bind, Except.bind]
    rcases checked_withWidth hw (u.rb + a) with h | h
    · exact .inl (by rw [h])
    · refine .inr ?_
      rw [withWidth_rb, h]
      cases checked u.cfg (u.rb + a) <;> rfl

/-- Format RR does the same at every width. -/
theorem jumpHandler_withWidth (u : State) (w : Option Nat) (taken : Int → Bool) :
    jumpHandler taken (withWidth u w) = (withWidth · w) <$> jumpHandler taken u := by
  have hjump (v : Int) : jumpTo (withWidth u w) v = (withWidth · w) <$> jumpTo u v := by
    unfold jumpTo
    split <;> rfl
  simp only [jumpHandler, readOperand_withWidth, hjump, map_bind, apply_ite]
  rfl

/-- IN does the same at every width: it stores the queued word unchecked. -/
theorem inputHandler_withWidth (u : State) (w : Option Nat) :
    inputHandler (withWidth u w) = (withWidth · w) <$> inputHandler u := by
  have hwrite (q : List Int) (d v : Int) :
      memWrite { withWidth u w with inq := q } d v = (withWidth · w) <$> memWrite { u with inq := q } d v :=
    memWrite_withWidth { u with inq := q } w d v
  simp only [inputHandler, resolveAddr_withWidth, withWidth_inq, hwrite, map_bind]
  cases u.inq with
  | nil => rfl
  | cons v rest => simp [withWidth, State.advance]

/-- OUT does the same at every width. -/
theorem outputHandler_withWidth (u : State) (w : Option Nat) :
    outputHandler (withWidth u w) = (withWidth · w) <$> outputHandler u := by
  simp only [outputHandler, readOperand_withWidth, map_bind]
  rfl

/-- An instruction's handler overflows, or does the same at the greater width (R150). -/
theorem handlerOfOpcode_withWidth (i : Instr) (hw : Widens u.cfg w) :
    handlerOfOpcode i.opcode u = .error .overflow ∨
      handlerOfOpcode i.opcode (withWidth u w) = (withWidth · w) <$> handlerOfOpcode i.opcode u := by
  cases i with
  | add | mul =>
    simp only [Instr.opcode, handlerOfOpcode]
    exact binaryHandler_withWidth fun _ _ => checked_withWidth hw _
  | lt | eq =>
    simp only [Instr.opcode, handlerOfOpcode]
    exact binaryHandler_withWidth fun _ _ => .inr rfl
  | arb => exact rebaseHandler_withWidth hw
  | inp => exact .inr (inputHandler_withWidth u w)
  | out => exact .inr (outputHandler_withWidth u w)
  | jt | jf => exact .inr (jumpHandler_withWidth u w _)
  | halt => exact .inr rfl

/-- An instruction takes Overflow, or has the same next state at the greater width (R150). -/
theorem exec_withWidth (hw : Widens s.cfg w) (h : exec i s = .next t) :
    (t.state = .faulted ∧ t.fault.code = .overflow) ∨ exec i (withWidth s w) = .next (withWidth t w) := by
  rw [exec_eq_runHandler] at h ⊢
  rcases handlerOfOpcode_withWidth (u := s.latch i.modes) i hw with hover | hsame
  · cases (runHandler_of_error hover).symm.trans h
    exact .inl ⟨rfl, rfl⟩
  · refine .inr ?_
    rcases runHandler_eq_next_iff.mp h with hok | ⟨f, herr, rfl⟩
    · exact runHandler_of_ok (hsame.trans (by rw [hok]; rfl))
    · exact runHandler_of_error (hsame.trans (by rw [herr]; rfl))

/-- Fetch and decode answer alike at every width (R111 to R113). -/
theorem fetchInstr_withWidth (s : State) (w : Option Nat) :
    fetchInstr (withWidth s w) = (fetchInstr s).mapError (withWidth · w) := by
  unfold fetchInstr
  rw [memRead_withWidth, withWidth_ip]
  cases memRead s s.ip with
  | error f => rfl
  | ok v =>
    dsimp only
    cases decodeWord v <;> rfl

/-- A step takes Overflow, or has the same next state at the greater width (R150). -/
theorem step_withWidth (hs : s.state = .running) (hw : Widens s.cfg w) (h : step s = .next t) :
    (t.state = .faulted ∧ t.fault.code = .overflow) ∨ step (withWidth s w) = .next (withWidth t w) := by
  rw [step_of_running hs] at h
  rw [step_of_running (s := withWidth s w) hs, fetchInstr_withWidth]
  cases hfetch : fetchInstr s with
  | ok i =>
    rw [hfetch] at h
    exact exec_withWidth hw h
  | error u =>
    rw [hfetch] at h
    cases h
    exact .inr rfl

/-- A run that returns without an Overflow returns the same at a greater width (R150). -/
theorem runLoop_withWidth {fuel : Nat} (hw : Widens s.cfg w) (h : runLoop fuel s = some t)
    (ht : t.fault.code ≠ .overflow) : runLoop fuel (withWidth s w) = some (withWidth t w) := by
  induction fuel generalizing s with
  | zero =>
    rw [runLoop_zero_eq_some h]
    exact runLoop_of_not_running (s := withWidth s w) (not_running_of_runLoop_zero (s := s) h) 0
  | succ fuel ih =>
    rcases runLoop_succ_state_cases h with ⟨hs, rfl⟩ | ⟨hs, u, hstep, hrest⟩
    · exact runLoop_of_not_running (s := withWidth t w) hs _
    · rcases step_withWidth hs hw hstep with ⟨hfault, hover⟩ | hwide
      · rw [runLoop_of_not_running (by simp [hfault])] at hrest
        cases hrest
        exact absurd hover ht
      · rw [runLoop_succ_of_running (s := withWidth s w) hs hwide]
        exact ih (step_cfg hstep ▸ hw) hrest

/-- Settles O40: the words of 64 bits are words at every greater width and at INF. -/
theorem resultIndependentOfWidth : Obligations.ResultIndependentOfWidth :=
  fun _ _ _ _ h64 hw h ht => runLoop_withWidth (widens_of_le h64 hw) h ht

end Sys2Proof.Machine
end

section
/-! SUPPORT. IN and OUT, outcome by outcome (R160, R165), and the frames of IN and of the instructions that store nothing (R116, R127). -/

namespace Sys2Proof.Machine

open Claims

variable {i : Instr} {s t u : State}

/-- Settles O18: a fault of the destination is the handler's on any queue; a pause and a pop are commits. -/
theorem inOutcomes : Obligations.InOutcomes := fun _ _ _ _ =>
  ⟨⟨rfl, rfl⟩, fun _ hf => runHandler_of_error (inputHandler_eq_error_iff.mpr hf),
    fun d hd hq => (Commits.pause d rfl hd hq).exec_eq_next,
    fun d v rest hd hq => (Commits.pop v rest d rfl hd hq).exec_eq_next⟩

/-- Settles O19: a fault of the operand is the handler's; the append is a commit. -/
theorem outOutcomes : Obligations.OutOutcomes := fun _ _ _ _ =>
  ⟨⟨rfl, rfl⟩, fun _ hf => runHandler_of_error (outputHandler_eq_error_iff.mpr (readOperand_eq_error_iff.mp hf)),
    fun a ha => (Commits.emit a rfl ha).exec_eq_next⟩

/-- What IN commits is the pause on an empty queue, or the front word moved to the cell of slot 1 (R160). -/
theorem Commits.cases_of_inp (h : Commits i u t) (hi : i.opcode = 3) :
    (u.inq = [] ∧ t = u.pause) ∨ ∃ d v rest, resolveAddr u .one .write = .ok d ∧
      t = { u with inq := rest, mem := u.mem.set d v, ip := u.ip + 2 } := by
  obtain ⟨d, hd, ⟨hq, ht⟩ | ⟨v, rest, -, ht⟩⟩ := inputHandler_eq_ok_iff.mp (hi ▸ h.handler_eq_ok)
  · exact .inl ⟨hq, ht⟩
  · exact .inr ⟨d, v, rest, hd, ht⟩

/-- Settles O30: the next state of IN is the pause, the move of the front word to the cell of slot 1, or a fault taken. -/
theorem inputInstructionFrame : Obligations.InputInstructionFrame := by
  intro m1 m2 m3 s t hwf h
  rcases exec_next_cases h with hc | ⟨f, rfl⟩
  · rcases hc.cases_of_inp rfl with ⟨hq, rfl⟩ | ⟨d, v, rest, hd, rfl⟩
    · exact ⟨rfl, rfl, rfl, .inl rfl, .inr (.inl ⟨rfl, hq⟩), fun _ => ⟨rfl, rfl⟩, fun _ _ _ _ => rfl, fun _ _ => rfl⟩
    · refine ⟨rfl, rfl, rfl, .inl rfl, .inl rfl, fun hip => ?_, fun d' hd' a ha => ?_, fun f hf => ?_⟩
      · simp at hip
      · obtain rfl : d = d' := Except.ok.inj (hd.symm.trans hd')
        exact (Memory.get_set hwf d v a).trans (if_neg ha)
      · cases hd.symm.trans hf
  · exact ⟨rfl, rfl, rfl, .inr rfl, .inr (.inr rfl), fun _ => ⟨rfl, rfl⟩, fun _ _ _ _ => rfl, fun _ _ => rfl⟩

/-- The instruction of format W is IN (R82, R83). -/
theorem format_eq_W_iff : i.format = .W ↔ i.opcode = 3 := by
  cases i <;> simp [Instr.format, Instr.opcode]

/-- A commit of an instruction without a write slot leaves memory (R116). -/
theorem Commits.mem_eq (h : Commits i u t) (hrrw : i.format ≠ .RRW) (hw : i.format ≠ .W) : t.mem = u.mem := by
  by_contra hne
  obtain ⟨_, _, ⟨hop, -⟩ | ⟨hop, -⟩, -⟩ := h.store_of_mem_ne hne
  · exact hrrw (format_eq_RRW_iff.mpr hop)
  · exact hw (format_eq_W_iff.mpr hop)

/-- A commit of an instruction other than IN leaves the input queue (R25). -/
theorem Commits.inq_eq (h : Commits i u t) (hw : i.format ≠ .W) : t.inq = u.inq := by
  by_contra hne
  exact hw (format_eq_W_iff.mpr (h.pop_of_inq_ne hne).1)

/-- No commit changes the fault record (R27). -/
theorem Commits.fault_eq (h : Commits i u t) : t.fault = u.fault := by cases h <;> rfl

/-- A commit leaves the run state, but for the pause of IN and HALT (R28, R160, R225). -/
theorem Commits.state_cases (h : Commits i u t) :
    t.state = u.state ∨ (i.opcode = 3 ∧ t.state = .paused) ∨ (i.opcode = 99 ∧ t.state = .halted) := by
  cases h with
  | pause d hi hd hq => exact .inr (.inl ⟨hi, rfl⟩)
  | halt hi => exact .inr (.inr ⟨hi, rfl⟩)
  | _ => exact .inl rfl

/-- Settles O31: the next state is a commit, field by field, or a fault taken. -/
theorem nonStoringInstructionsFrame : Obligations.NonStoringInstructionsFrame := by
  intro i s t hrrw hw h
  rcases exec_next_cases h with hc | ⟨f, rfl⟩
  · have hmem : t.mem = s.mem := hc.mem_eq hrrw hw
    refine ⟨hc.cfg_eq, fun a => by rw [hmem], hmem, hc.inq_eq hw, fun h9 => ?_, fun h4 => ?_, .inl hc.fault_eq,
      fun h99 => ?_, fun ht => ?_⟩
    · by_contra hne
      exact h9 (hc.opcode_of_rb_ne hne)
    · by_contra hne
      exact h4 (hc.emit_of_outlog_ne hne).1
    · rcases hc.state_cases with hst | ⟨h3, -⟩ | ⟨hop, -⟩
      · exact .inl hst
      · exact absurd (format_eq_W_iff.mpr h3) hw
      · exact absurd hop h99
    · rcases hc.state_cases with hst | ⟨-, hst⟩ | ⟨-, hst⟩
      · exact .inr (hst.symm.trans ht)
      · cases hst.symm.trans ht
      · cases hst.symm.trans ht
  · exact ⟨rfl, fun _ => rfl, rfl, rfl, fun _ => rfl, fun _ => rfl, .inr rfl, fun _ => .inr rfl, fun _ => .inl rfl⟩

end Sys2Proof.Machine
end

section
/-! SUPPORT. JT and JF, outcome by outcome (R180, R185, R190): both slots are read whether or not the jump is taken, so a fault of either
comes before the decision; only a taken jump looks at the sign of its target. -/

namespace Sys2Proof.Machine

open Claims

variable {taken : Int → Bool} {m : Modes} {s : State} {a v : Int} {f : Fault}

/-- A fault of the first slot is the jump's (R125). -/
theorem runJump_of_one_error (h1 : readOperand (s.latch m) .one = .error f) :
    runHandler m s (jumpHandler taken) = instrFault s m f := by
  refine runHandler_of_error ?_
  rw [jumpHandler, h1]
  rfl

/-- A fault of the second slot is the jump's when the first is read, taken or not (R190). -/
theorem runJump_of_two_error (h1 : readOperand (s.latch m) .one = .ok a) (h2 : readOperand (s.latch m) .two = .error f) :
    runHandler m s (jumpHandler taken) = instrFault s m f := by
  refine runHandler_of_error ?_
  rw [jumpHandler, h1, h2]
  rfl

/-- A taken jump to a negative target raises NegativeTarget (R190). -/
theorem runJump_of_neg_target (h1 : readOperand (s.latch m) .one = .ok a) (h2 : readOperand (s.latch m) .two = .ok v)
    (ht : taken a = true) (hv : v < 0) :
    runHandler m s (jumpHandler taken) = instrFault s m (.negativeTarget v) := by
  refine runHandler_of_error ?_
  rw [jumpHandler, h1, h2]
  simp only [bind, Except.bind, ht, if_true, jumpTo, hv]

/-- JT is taken on a non-zero operand (R180). -/
theorem isNonZero_of_ne (h : a ≠ 0) : isNonZero a = true := decide_eq_true h

/-- JF is taken on a zero operand (R185). -/
theorem not_isNonZero_of_eq (h : a = 0) : (!isNonZero a) = true := h ▸ rfl

/-- Settles O20: the faults are the handler's; the jump on a non-zero operand and the advance on zero are commits. -/
theorem jumpIfTrueOutcomes : Obligations.JumpIfTrueOutcomes := fun _ _ _ _ =>
  ⟨⟨rfl, rfl⟩, fun _ => runJump_of_one_error, fun _ _ => runJump_of_two_error,
    fun _ _ h1 h2 ha => runJump_of_neg_target h1 h2 (isNonZero_of_ne ha),
    fun a v h1 h2 ha hv => (Commits.jump a v (.inl ⟨rfl, ha⟩) h1 h2 hv).exec_eq_next,
    fun a v h1 h2 ha => (Commits.fall a v (.inl ⟨rfl, ha⟩) h1 h2).exec_eq_next⟩

/-- Settles O21: the faults are the handler's; the jump on a zero operand and the advance on any other are commits. -/
theorem jumpIfFalseOutcomes : Obligations.JumpIfFalseOutcomes := fun _ _ _ _ =>
  ⟨⟨rfl, rfl⟩, fun _ => runJump_of_one_error, fun _ _ => runJump_of_two_error,
    fun _ _ h1 h2 ha => runJump_of_neg_target h1 h2 (not_isNonZero_of_eq ha),
    fun a v h1 h2 ha hv => (Commits.jump a v (.inr ⟨rfl, ha⟩) h1 h2 hv).exec_eq_next,
    fun a v h1 h2 ha => (Commits.fall a v (.inr ⟨rfl, ha⟩) h1 h2).exec_eq_next⟩

end Sys2Proof.Machine
end

section
/-! SUPPORT. LT and EQ, outcome by outcome (R200, R205): format RRW with an ALU that decides a relation and makes no range check, so
the faults are those of the slots only. -/

namespace Sys2Proof.Machine

open Claims

variable {p : Int → Int → Prop} [∀ a b, Decidable (p a b)] {m : Modes} {s : State} {a b : Int} {d : Nat}

/-- With no fault of a slot a compare stores whether its relation holds, as 1 or 0, and `ip` advances by 4 (R200, R205). -/
theorem runCompare_of_ok (h1 : readOperand (s.latch m) .one = .ok a) (h2 : readOperand (s.latch m) .two = .ok b)
    (h3 : resolveAddr (s.latch m) .three .write = .ok d) :
    runHandler m s (binaryHandler fun _ x y => .ok (boolWord (decide (p x y)))) =
      .next { s with modes := m, mem := s.mem.set d (if p a b then 1 else 0), ip := s.ip + 4 } :=
  runBinary_of_ok h1 h2 h3 (congrArg Except.ok (boolWord_decide (p a b)))

/-- Settles O22: LT is the compare by `<`. -/
theorem lessThanOutcomes : Obligations.LessThanOutcomes := by
  intro s m1 m2 m3
  simp only [exec_lt]
  exact ⟨⟨rfl, rfl⟩, fun _ => runBinary_of_one_error, fun _ _ => runBinary_of_two_error, fun _ _ _ => runBinary_of_three_error,
    fun _ _ _ => runCompare_of_ok (p := (· < ·))⟩

/-- Settles O23: EQ is the compare by `=`. -/
theorem equalsOutcomes : Obligations.EqualsOutcomes := by
  intro s m1 m2 m3
  simp only [exec_eq]
  exact ⟨⟨rfl, rfl⟩, fun _ => runBinary_of_one_error, fun _ _ => runBinary_of_two_error, fun _ _ _ => runBinary_of_three_error,
    fun _ _ _ => runCompare_of_ok (p := (· = ·))⟩

end Sys2Proof.Machine
end

section
/-! SUPPORT. ARB and HALT, outcome by outcome (R220, R225): ARB reads its slot and checks the new base before it commits; HALT reads
nothing and cannot fault. -/

namespace Sys2Proof.Machine

variable {u : State} {a : Int} {f : Fault}

/-- A fault of the slot is ARB's (R220). -/
theorem rebaseHandler_of_operand_error (h : readOperand u .one = .error f) : rebaseHandler u = .error f := by
  rw [rebaseHandler, h]
  rfl

/-- ARB overflows when the old base plus its operand is no word (R124, R220). -/
theorem rebaseHandler_of_not_fits (h : readOperand u .one = .ok a) (hf : fits u.cfg (u.rb + a) = false) :
    rebaseHandler u = .error .overflow := by
  have hc : checked u.cfg (u.rb + a) = .error .overflow := checked_eq_error_iff.mpr ⟨hf, rfl⟩
  rw [rebaseHandler, h]
  simp only [bind, Except.bind, hc]

/-- Settles O24: a fault of the slot and an overflow are the handler's; the new base is a commit. -/
theorem adjustBaseOutcomes : Obligations.AdjustBaseOutcomes := fun _ _ _ _ =>
  ⟨⟨rfl, rfl⟩, fun _ h => runHandler_of_error (rebaseHandler_of_operand_error h),
    fun _ h hf => runHandler_of_error (rebaseHandler_of_not_fits h hf),
    fun a h hf => (Commits.rebase a rfl h hf).exec_eq_next⟩

/-- Settles O25: the halt is a commit in every state. -/
theorem haltOutcome : Obligations.HaltOutcome := fun _ _ _ _ =>
  ⟨⟨rfl, rfl⟩, (Commits.halt rfl).exec_eq_next⟩

end Sys2Proof.Machine
end

section
/-! SUPPORT. Program text (R257): the digits of a written integer are read back by the fold that reads them, and the commas of a
written program stand only between its integers. -/

namespace Sys2Proof.Machine

variable {c : Char} {n : Nat} {v : Int} {acc cs : List Char}

/-! ### Digits -/

/-- The last decimal digit of a number, as the writer puts it. -/
def lastDigitChar (n : Nat) : Char := Char.ofNat ('0'.toNat + n % 10)

/-- A written digit has its value. -/
@[simp] theorem digitValue_lastDigitChar (n : Nat) : digitValue (lastDigitChar n) = some (n % 10) :=
  (by decide : ∀ d < 10, digitValue (Char.ofNat ('0'.toNat + d)) = some d) _ (Nat.mod_lt n (by decide))

/-- The white space of program text (log 17). -/
theorem isSpace_iff : isSpace c = true ↔ c ∈ [' ', '\t', '\n', '\r'] := by
  simp [isSpace, or_assoc]

/-- White space is no digit. -/
theorem digitValue_of_isSpace (h : isSpace c = true) : digitValue c = none := by
  simp only [isSpace_iff, List.mem_cons, List.not_mem_nil, or_false] at h
  rcases h with rfl | rfl | rfl | rfl <;> rfl

/-- A number below ten is written as one digit. -/
theorem natDigits_of_lt (fuel : Nat) (h : n < 10) (acc : List Char) :
    natDigits (fuel + 1) n acc = lastDigitChar n :: acc :=
  if_pos h

/-- Any other number is written as its tenth part and one digit. -/
theorem natDigits_of_not_lt (fuel : Nat) (h : ¬ n < 10) (acc : List Char) :
    natDigits (fuel + 1) n acc = natDigits fuel (n / 10) (lastDigitChar n :: acc) :=
  if_neg h

/-- Reading a written digit shifts what has been read and adds the digit. -/
theorem readDigits_lastDigitChar_cons (k n : Nat) (cs : List Char) :
    readDigits k (lastDigitChar n :: cs) = readDigits (10 * k + n % 10) cs := by
  simp only [readDigits, digitValue_lastDigitChar]

/-- With fuel enough for the number, its digits are read back, whatever follows them. -/
theorem readDigits_natDigits {fuel : Nat} (h : n < fuel) (acc : List Char) :
    readDigits 0 (natDigits fuel n acc) = readDigits n acc := by
  induction fuel generalizing n acc with
  | zero => exact absurd h n.not_lt_zero
  | succ fuel ih =>
    by_cases hn : n < 10
    · rw [natDigits_of_lt fuel hn, readDigits_lastDigitChar_cons, Nat.mul_zero, Nat.zero_add, Nat.mod_eq_of_lt hn]
    · rw [natDigits_of_not_lt fuel hn, ih (by omega), readDigits_lastDigitChar_cons, Nat.div_add_mod]

/-- Writing a number adds digits only. -/
theorem mem_natDigits {fuel : Nat} (h : c ∈ natDigits fuel n acc) : c ∈ acc ∨ digitValue c ≠ none := by
  induction fuel generalizing n acc with
  | zero => exact .inl h
  | succ fuel ih =>
    have digit_cons : c ∈ lastDigitChar n :: acc → c ∈ acc ∨ digitValue c ≠ none := fun hc =>
      (List.mem_cons.mp hc).symm.imp_right fun heq => by simp [heq]
    by_cases hn : n < 10
    · exact digit_cons (natDigits_of_lt fuel hn acc ▸ h)
    · exact (ih (natDigits_of_not_lt fuel hn acc ▸ h)).elim digit_cons .inr

/-- Writing a number with fuel puts a digit, and no digit put is dropped. -/
theorem natDigits_ne_nil {fuel : Nat} (h : 0 < fuel ∨ acc ≠ []) : natDigits fuel n acc ≠ [] := by
  induction fuel generalizing n acc with
  | zero => exact h.resolve_left (lt_irrefl 0)
  | succ fuel ih =>
    by_cases hn : n < 10
    · simp [natDigits_of_lt fuel hn]
    · rw [natDigits_of_not_lt fuel hn]
      exact ih (.inr (List.cons_ne_nil _ _))

/-- A written number has a digit. -/
theorem writeNat_ne_nil (n : Nat) : writeNat n ≠ [] :=
  natDigits_ne_nil (.inl n.succ_pos)

/-- A written number consists of digits. -/
theorem digitValue_of_mem_writeNat (h : c ∈ writeNat n) : digitValue c ≠ none :=
  (mem_natDigits h).resolve_left List.not_mem_nil

/-! ### Integers -/

/-- One or more characters are read as a number by their digits. -/
theorem readNat_of_ne_nil (h : cs ≠ []) : readNat cs = readDigits 0 cs := by
  cases cs with
  | nil => exact absurd rfl h
  | cons c cs => rfl

/-- A written number reads back. -/
theorem readNat_writeNat (n : Nat) : readNat (writeNat n) = some n :=
  (readNat_of_ne_nil (writeNat_ne_nil n)).trans (readDigits_natDigits n.lt_succ_self [])

/-- A text without a minus sign is read as a number. -/
theorem readInt_of_not_mem (h : '-' ∉ cs) : readInt cs = (readNat cs).map fun n : Nat => (n : Int) := by
  unfold readInt
  split
  · exact absurd List.mem_cons_self h
  · rfl

/-- A written integer reads back. -/
theorem readInt_writeInt (v : Int) : readInt (writeInt v) = some v := by
  unfold writeInt
  split
  · simp only [readInt, readNat_writeNat, Option.map_some, Option.some.injEq]
    omega
  · rw [readInt_of_not_mem fun h => digitValue_of_mem_writeNat h rfl, readNat_writeNat, Option.map_some, Option.some.injEq]
    omega

/-- A written integer consists of digits and a minus sign. -/
theorem mem_writeInt (h : c ∈ writeInt v) : c = '-' ∨ digitValue c ≠ none := by
  unfold writeInt at h
  split at h
  · exact (List.mem_cons.mp h).imp_right digitValue_of_mem_writeNat
  · exact .inr (digitValue_of_mem_writeNat h)

/-- A written integer is not blank. -/
theorem writeInt_ne_nil (v : Int) : writeInt v ≠ [] := fun h => by
  cases h ▸ readInt_writeInt v

/-- No comma stands in a written integer. -/
theorem comma_not_mem_writeInt (v : Int) : ',' ∉ writeInt v := fun h =>
  (mem_writeInt h).elim (by decide) fun hd => hd rfl

/-- No white space stands in a written integer. -/
theorem not_isSpace_of_mem_writeInt (h : c ∈ writeInt v) : isSpace c = false := by
  rcases mem_writeInt h with rfl | hd
  · rfl
  · exact Bool.eq_false_iff.mpr fun hs => hd (digitValue_of_isSpace hs)

/-! ### Programs -/

/-- A text without the separator is one piece. -/
theorem splitOnChar_of_not_mem {sep : Char} (h : sep ∉ cs) : splitOnChar sep cs = [cs] := by
  induction cs with
  | nil => rfl
  | cons c cs ih =>
    rw [splitOnChar, if_neg (List.ne_of_not_mem_cons h).symm, ih (List.not_mem_of_not_mem_cons h)]

/-- A text is cut at its first separator. -/
theorem splitOnChar_append_cons {sep : Char} (h : sep ∉ cs) (rest : List Char) :
    splitOnChar sep (cs ++ sep :: rest) = cs :: splitOnChar sep rest := by
  induction cs with
  | nil => exact if_pos rfl
  | cons c cs ih =>
    rw [List.cons_append, splitOnChar, if_neg (List.ne_of_not_mem_cons h).symm, ih (List.not_mem_of_not_mem_cons h)]

/-- A written program is cut into its integers. -/
theorem splitOnChar_writeProgram (v : Int) (p : List Int) :
    splitOnChar ',' (writeProgram (v :: p)) = (v :: p).map writeInt := by
  induction p generalizing v with
  | nil => exact splitOnChar_of_not_mem (comma_not_mem_writeInt v)
  | cons w p ih =>
    rw [writeProgram, splitOnChar_append_cons (comma_not_mem_writeInt v), ih w]
    rfl

/-- Written integers read back. -/
theorem readInts_map_writeInt (p : List Int) : readInts (p.map writeInt) = some p := by
  induction p with
  | nil => rfl
  | cons v p ih => simp only [List.map_cons, readInts, readInt_writeInt, ih]

/-- No white space stands in a written program. -/
theorem not_isSpace_of_mem_writeProgram {p : List Int} (h : c ∈ writeProgram p) : isSpace c = false := by
  induction p using writeProgram.induct with
  | case1 => cases h
  | case2 v => exact not_isSpace_of_mem_writeInt h
  | case3 v w vs ih =>
    rcases List.mem_append.mp h with h | h
    · exact not_isSpace_of_mem_writeInt h
    · rcases List.mem_cons.mp h with rfl | h
      · rfl
      · exact ih h

/-- A written program is blank only when it is empty. -/
theorem writeProgram_cons_ne_nil (v : Int) (p : List Int) : writeProgram (v :: p) ≠ [] := by
  cases p <;> simp [writeProgram, writeInt_ne_nil]

/-- A text that is not blank and has no white space is read integer by integer. -/
theorem readProgram_of_no_space (h : ∀ c ∈ cs, isSpace c = false) (hne : cs ≠ []) :
    readProgram cs = readInts (splitOnChar ',' cs) := by
  rw [readProgram, List.filter_eq_self.mpr fun c hc => by simp [h c hc]]
  cases cs with
  | nil => exact absurd rfl hne
  | cons c cs => rfl

/-- A written program reads back. -/
theorem readProgram_writeProgram (p : List Int) : readProgram (writeProgram p) = some p := by
  cases p with
  | nil => rfl
  | cons v p =>
    rw [readProgram_of_no_space (fun _ => not_isSpace_of_mem_writeProgram) (writeProgram_cons_ne_nil v p),
      splitOnChar_writeProgram, readInts_map_writeInt]

/-- White space makes no difference to a program text. -/
theorem readProgram_append_space_cons (a b : List Char) (h : isSpace c = true) :
    readProgram (a ++ c :: b) = readProgram (a ++ b) := by
  have hfilter : (a ++ c :: b).filter (fun c => !isSpace c) = (a ++ b).filter (fun c => !isSpace c) := by simp [h]
  rw [readProgram, hfilter, readProgram]

/-- Settles O59: the text is cut at the commas the writer put, and each piece reads back by its digits; white space is
filtered out before anything is read. -/
theorem programTextReadsBack : Obligations.ProgramTextReadsBack :=
  ⟨readProgram_writeProgram, fun a b _ hc => readProgram_append_space_cons a b (isSpace_iff.mpr hc), rfl⟩

end Sys2Proof.Machine
end

section
/-! SUPPORT. The host's operations on one Machine, outcome by outcome (R242 to R253). -/

namespace Sys2Proof.Machine

variable {c : Config} {p : List Int} {s : State} {a v : Int} {e : HostError}

/-- A program fits the memory when it has at most `MEM_LIMIT` words (R242). -/
theorem programFits_iff : programFits c p = true ↔ ∀ l ∈ c.memLimit, p.length ≤ l := by
  unfold programFits
  cases c.memLimit <;> simp

/-- A program with a value that is no word is refused, however long it is (R242, log 12). -/
theorem construct_of_not_fits (h : ∃ v ∈ p, fits c v = false) : construct c p = .error .valueRange :=
  if_pos (by simpa using h)

/-- A program of words that is too long is refused (R242). -/
theorem construct_of_too_long (hp : ∀ v ∈ p, fits c v = true) (h : ∃ l ∈ c.memLimit, l < p.length) :
    construct c p = .error .hostCapacity := by
  have hlong : programFits c p = false := Bool.eq_false_iff.mpr fun hfit => by
    obtain ⟨l, hl, hlt⟩ := h
    exact absurd (programFits_iff.mp hfit l hl) (not_le.mpr hlt)
  rw [construct, if_neg (by simpa using hp), if_pos hlong]

/-- Settles O47: the two refusals are the two checks; what passes both is the reset state around the loaded program. -/
theorem constructOutcomes : Obligations.ConstructOutcomes := fun _ p =>
  ⟨construct_of_not_fits, construct_of_too_long, fun hp hl =>
    ⟨_, construct_eq_ok_iff.mpr ⟨hp, programFits_iff.mpr hl, rfl⟩, rfl,
      fun a h => (Memory.get_ofProgram p a).trans (List.getD_eq_getElem p 0 h),
      fun a h => (Memory.get_ofProgram p a).trans (List.getD_eq_default p 0 h), rfl, rfl, rfl, rfl, rfl, rfl, rfl⟩⟩

/-! ### inject and read -/

/-- Below 0 the host's address check fails with HostAddressError (R247, R248). -/
theorem hostAddr_of_neg (h : a < 0) : hostAddr c a = .error .hostAddressError :=
  if_pos h

/-- At or above `MEM_LIMIT` the host's address check fails with HostCapacity (R247, R248). -/
theorem hostAddr_of_not_inMemory (h : 0 ≤ a) (hm : inMemory c a.toNat = false) : hostAddr c a = .error .hostCapacity := by
  rw [hostAddr, if_neg (not_lt.mpr h), if_neg (by simp [hm])]

/-- An address passes the host's address check (R247, R248). -/
theorem hostAddr_of_inMemory (h : 0 ≤ a) (hm : inMemory c a.toNat = true) : hostAddr c a = .ok a.toNat :=
  hostAddr_eq_ok_iff.mpr ⟨(Int.toNat_of_nonneg h).symm, hm⟩

/-- inject fails as its address check does, whatever the value (R247, log 12). -/
theorem inject_of_hostAddr_error (h : hostAddr s.cfg a = .error e) (v : Int) : inject s a v = .error e := by
  rw [inject, h]
  rfl

/-- At an address inject refuses a value that is no word (R247). -/
theorem inject_of_not_fits {n : Nat} (h : hostAddr s.cfg a = .ok n) (hv : fits s.cfg v = false) :
    inject s a v = .error .valueRange := by
  simp [inject, h, hv, bind, Except.bind]

/-- read answers as its address check does, with the cell (R248). -/
theorem hostRead_eq_map (s : State) (a : Int) : hostRead s a = (hostAddr s.cfg a).map s.mem.get := rfl

/-- read fails as its address check does (R248). -/
theorem hostRead_of_hostAddr_error (h : hostAddr s.cfg a = .error e) : hostRead s a = .error e := by
  rw [hostRead_eq_map, h]
  rfl

/-- After a store at an address, read gives the stored word there and what it gave before everywhere else (R247, R248). -/
theorem hostRead_set (hwf : s.mem.wf) {n : Nat} (hn : inMemory s.cfg n = true) (v b : Int) :
    hostRead { s with mem := s.mem.set n v } b = if b = n then .ok v else hostRead s b := by
  simp only [hostRead_eq_map]
  cases hb : hostAddr s.cfg b with
  | error e =>
    have hne : b ≠ n := by
      rintro rfl
      simp [hostAddr_eq_ok_iff.mpr ⟨rfl, hn⟩] at hb
    rw [if_neg hne]
    rfl
  | ok k =>
    obtain ⟨rfl, -⟩ := hostAddr_eq_ok_iff.mp hb
    simp only [Except.map, Memory.get_set hwf, Int.ofNat_inj]
    split <;> rfl

/-- Settles O49: both operations make the same address check; a stored word is read back, and every other read is as before. -/
theorem injectAndReadOutcomes : Obligations.InjectAndReadOutcomes := by
  intro s a v hwf
  refine ⟨fun h => ?_, fun h hm => ?_, fun h hm => ?_, fun h hm => inject_of_not_fits (hostAddr_of_inMemory h hm),
    fun h hm hv => ?_⟩
  · exact ⟨inject_of_hostAddr_error (hostAddr_of_neg h) v, hostRead_of_hostAddr_error (hostAddr_of_neg h)⟩
  · have herr := hostAddr_of_not_inMemory h hm
    exact ⟨inject_of_hostAddr_error herr v, hostRead_of_hostAddr_error herr⟩
  · rw [hostRead_eq_map, hostAddr_of_inMemory h hm]
    rfl
  · obtain ⟨n, rfl⟩ := Int.eq_ofNat_of_zero_le h
    exact ⟨s.mem.set n v, inject_eq_ok_iff.mpr ⟨n, rfl, hm, hv, rfl⟩, hostRead_set hwf hm v⟩

/-! ### resume and the output log -/

/-- resume of a Machine that is not Paused is run (R131, R244). -/
theorem resume_of_not_paused (h : s.state ≠ .paused) (fuel : Nat) : resume fuel s = run fuel s := by
  rw [resume, State.wake_of_not_paused h]

/-- resume of a Machine that is neither Paused nor Running returns it with its report (R130, R244). -/
theorem resume_of_stopped (hp : s.state ≠ .paused) (hr : s.state ≠ .running) (fuel : Nat) :
    resume fuel s = some (s, exitReport s) :=
  (resume_of_not_paused hp fuel).trans (runOnStoppedMachineDoesNothing.2 fuel s hr)

/-- Settles O45: a Paused Machine is woken and run, any other is run; a Halted or Faulted one is returned with its
report. -/
theorem resumeOutcomes : Obligations.ResumeOutcomes := by
  intro fuel s
  refine ⟨fun h => ?_, fun h => resume_of_not_paused (by simp [h]) fuel, fun h => ?_, fun h => ?_⟩
  · rw [resume, State.wake_of_paused h]
  · simp [resume_of_stopped (s := s) (by simp [h]) (by simp [h]), exitReport, h]
  · simp [resume_of_stopped (s := s) (by simp [h]) (by simp [h]), exitReport, h]

/-- A log that is not empty is dumped whole (R253). -/
theorem dumpOutput_of_ne_nil (h : s.outlog ≠ []) : dumpOutput s = .ok s.outlog := by
  unfold dumpOutput
  split
  · exact absurd ‹_› h
  · exact congrArg Except.ok (Eq.symm ‹_›)

/-- Settles O51: the newest word of the log is its last. -/
theorem outputReadingOutcomes : Obligations.OutputReadingOutcomes := by
  refine fun s => ⟨fun h => ⟨by simp [lastOutput, h], by simp [dumpOutput, h]⟩, fun vs v h => ⟨?_, ?_⟩⟩
  · simp [lastOutput, h]
  · rw [dumpOutput_of_ne_nil (by simp [h]), h]

/-- extend_input refuses all values when one is no word (R249). -/
theorem extendInput_of_not_fits {vs : List Int} (h : ∃ v ∈ vs, fits s.cfg v = false) :
    extendInput s vs = .error .valueRange :=
  if_neg (by simpa using h)

end Sys2Proof.Machine
end

section
/-! SUPPORT. A session's commands, outcome by outcome: a refusal, a drain, a clone (R240, R241, R250, R255). -/

namespace Sys2Proof.Machine

variable {h : Session} {i j : Nat} {s t : State}

/-- A result that leaves the session when its reply turns the command away (R241). -/
def Session.KeptWhenRefused (h : Session) (r : Session × HostReply) : Prop := r.2.turnsAway = true → r.1 = h

/-- An update that is refused leaves the session. -/
theorem Session.update_kept (h : Session) (i : Nat) (op : State → Except HostError State) :
    h.KeptWhenRefused (h.update i op) := by
  unfold Session.update
  split
  · exact fun _ => rfl
  · split
    · exact fun _ => rfl
    · exact nofun

/-- A query leaves the session, refused or not. -/
theorem Session.query_kept (h : Session) (i : Nat) (op : State → Except HostError HostReply) :
    h.KeptWhenRefused (h.query i op) :=
  fun _ => h.query_fst i op

/-- A run that is refused leaves the session. -/
theorem Session.begin_kept (h : Session) (i : Nat) (prepare : State → State) : h.KeptWhenRefused (h.begin i prepare) := by
  unfold Session.begin
  split
  · exact fun _ => rfl
  · exact nofun

/-- A drain that is refused leaves the session. -/
theorem Session.drain_kept (h : Session) (i j : Nat) : h.KeptWhenRefused (h.drain i j) := by
  unfold Session.drain
  split
  · split
    · exact fun _ => rfl
    · exact nofun
  · exact fun _ => rfl

/-- A command that is refused while no run is in progress leaves the session. -/
theorem Session.transact_kept (h : Session) (cmd : HostCmd) : h.KeptWhenRefused (h.transact cmd) := by
  cases cmd with
  | construct | clone =>
    simp only [Session.transact]
    split
    · exact fun _ => rfl
    · exact nofun
  | reboot | inject | extendInput => exact h.update_kept _ _
  | run | resume => exact h.begin_kept _ _
  | drainOutputInto i j => exact h.drain_kept i j
  | isRunning | read | lastOutput | dumpOutput | readStatus => exact h.query_kept _ _

/-- While a run is in progress a command is refused (R240, log 14). -/
theorem Session.issue_of_active (ha : h.active ≠ none) (cmd : HostCmd) : h.issue cmd = (h, .error .busy) := by
  obtain ⟨i, hi⟩ := Option.ne_none_iff_exists'.mp ha
  simp [Session.issue, hi]

/-- Settles O54: the refusal is decided before the command is looked at. -/
theorem busyDuringARun : Obligations.BusyDuringARun := fun _ cmd ha => Session.issue_of_active ha cmd

/-- Settles O53: a refusal during a run leaves the session, and so does each command's own. -/
theorem hostErrorChangesNothing : Obligations.HostErrorChangesNothing := by
  refine ⟨fun h cmd => ?_, ⟨rfl, rfl, rfl, rfl, rfl, rfl, rfl⟩, fun α => ⟨fun _ => rfl, fun _ => rfl⟩⟩
  by_cases ha : h.active = none
  · rw [Session.issue_of_idle ha]
    exact h.transact_kept cmd
  · rw [Session.issue_of_active ha]
    exact fun _ => rfl

/-- A Machine put in place of another is found there. -/
theorem Session.put_getElem?_self (hm : h.machines[i]? = some s) (t : State) : (h.put i t).machines[i]? = some t :=
  List.getElem?_set_self (List.getElem?_eq_some_iff.mp hm).1

/-- A drain of one Machine into another puts both back (R250). -/
theorem Session.drain_of_ne (hne : i ≠ j) (hs : h.machines[i]? = some s) (ht : h.machines[j]? = some t) :
    h.drain i j = ((h.put i { s with outlog := [] }).put j { t with inq := t.inq ++ s.outlog }, .ok) := by
  simp [Session.drain, hs, ht, hne, drainOutputInto]

/-- A drain of a Machine into itself is refused (R250). -/
theorem Session.drain_self (hs : h.machines[i]? = some s) : h.drain i i = (h, .error .selfDrain) := by
  simp [Session.drain, hs]

/-- Settles O50: the values are checked before any is appended, and a drain replaces the two Machines it names. -/
theorem queueOperationsOutcomes : Obligations.QueueOperationsOutcomes := by
  refine ⟨fun s vs => ⟨extendInput_of_not_fits, fun hv => extendInput_eq_ok_iff.mpr ⟨hv, rfl⟩⟩,
    fun h i j s t ha hne hs ht => ?_, fun h i s ha hs => (h.issue_of_idle ha _).trans (h.drain_self hs)⟩
  refine ⟨_, (h.issue_of_idle ha _).trans (h.drain_of_ne hne hs ht), ?_, ?_, fun k hki hkj => ?_⟩
  · rw [Session.put_getElem?_ne _ hne.symm, Session.put_getElem?_self hs]
  · exact Session.put_getElem?_self ((h.put_getElem?_ne hne _).trans ht) _
  · rw [Session.put_getElem?_ne _ hkj.symm, Session.put_getElem?_ne _ hki.symm]

/-- A clone is made of the Machine found (R255). -/
theorem Session.transact_clone (hm : h.machines[i]? = some s) : h.transact (.clone i) = h.make s := by
  simp [Session.transact, hm, clone]

/-- Settles O57: the clone takes the next reference. -/
theorem cloneCopiesEveryField : Obligations.CloneCopiesEveryField := fun h _ s ha hm =>
  ⟨_, (h.issue_of_idle ha _).trans (h.transact_clone hm), List.getElem?_concat_length, fun _ hk => h.make_getElem?_lt hk s⟩

end Sys2Proof.Machine
end

section
/-! SUPPORT. Faults and the run states: what a fault records (R27, R280, R290), how a step leaves Running (R300), and that Halted and
Faulted are left by a reboot only (R291, R301). -/

namespace Sys2Proof.Machine

variable {h : Session} {cmd : HostCmd} {i : Instr} {j k : Nat} {s t u : State}

/-- Settles O26: each fault has one line in the table of R280. -/
theorem faultCodesAreTheSpecs : Obligations.FaultCodesAreTheSpecs := fun _ _ =>
  ⟨⟨rfl, rfl, rfl⟩, ⟨rfl, rfl, rfl⟩, ⟨rfl, rfl, rfl⟩, ⟨rfl, rfl, rfl⟩, ⟨rfl, rfl, rfl⟩, ⟨rfl, rfl, rfl⟩, rfl, rfl, rfl⟩

/-- No commit faults a Running Machine (R127, R290). -/
theorem Commits.state_ne_faulted (h : Commits i u t) (hu : u.state = .running) : t.state ≠ .faulted := by
  rcases h.state_cases with ht | ⟨-, ht⟩ | ⟨-, ht⟩ <;> simp [ht, hu]

/-- A commit halts a Running Machine for HALT only (R225). -/
theorem Commits.opcode_of_halted (h : Commits i u t) (hu : u.state = .running) (ht : t.state = .halted) :
    i.opcode = 99 := by
  rcases h.state_cases with hst | ⟨-, hst⟩ | ⟨hop, -⟩
  · cases (hst.trans hu).symm.trans ht
  · cases hst.symm.trans ht
  · exact hop

/-- Opcode 99 is HALT. -/
theorem eq_halt_of_opcode (h : i.opcode = 99) : i = .halt i.modes.m1 i.modes.m2 i.modes.m3 :=
  instr_eq_of_opcode_modes h rfl

/-- Settles O27: no commit ends Faulted, so the step is a fault taken. -/
theorem faultCommitsNothing : Obligations.FaultCommitsNothing := by
  intro s t hs h ht
  rcases step_next_cases h with ⟨hne, -⟩ | ⟨-, i, -, -, -, hc⟩ | ⟨-, m, w, f, hw, rfl⟩
  · exact absurd hs hne
  · exact absurd ht (hc.state_ne_faulted hs)
  · refine ⟨rfl, rfl, rfl, rfl, rfl, rfl, f.code_ne_none, rfl, ?_⟩
    rcases hw with ⟨rfl, hin⟩ | ⟨rfl, hout⟩
    · exact (if_pos hin).symm
    · exact (if_neg (by simp [hout])).symm

/-- A step halts a Running Machine exactly when the word at `ip` decodes to HALT (R225, R300). -/
theorem step_halted_iff (hs : s.state = .running) (h : step s = .next t) :
    t.state = .halted ↔ inMemory s.cfg s.ip = true ∧
      ∃ m1 m2 m3 : Mode, decodeWord (s.mem.get s.ip) = .ok (.halt m1 m2 m3) := by
  constructor
  · intro ht
    rcases step_next_cases h with ⟨hne, -⟩ | ⟨-, i, -, hdec, hin, hc⟩ | ⟨-, m, w, f, -, rfl⟩
    · exact absurd hs hne
    · exact ⟨hin, _, _, _, eq_halt_of_opcode (hc.opcode_of_halted hs ht) ▸ hdec⟩
    · cases ht
  · rintro ⟨hin, m1, m2, m3, hdec⟩
    rw [stepRunsDecodedInstruction s _ hs hin hdec, (haltOutcome s m1 m2 m3).2] at h
    cases h
    rfl

/-- A step pauses a Running Machine exactly when the word at `ip` decodes to an IN whose slot resolves and the input queue is empty
(R160, R300). -/
theorem step_paused_iff (hs : s.state = .running) (h : step s = .next t) :
    t.state = .paused ↔ inMemory s.cfg s.ip = true ∧ s.inq = [] ∧ ∃ (m1 m2 m3 : Mode) (d : Nat),
      decodeWord (s.mem.get s.ip) = .ok (.inp m1 m2 m3) ∧
      resolveAddr (s.latch ⟨m1, m2, m3⟩) .one .write = .ok d := by
  constructor
  · intro ht
    obtain ⟨m, d, hin, hdec, hd, hq, -⟩ := step_paused hs h ht
    exact ⟨hin, hq, m.m1, m.m2, m.m3, d, hdec, hd⟩
  · rintro ⟨hin, hq, m1, m2, m3, d, hdec, hd⟩
    have hpause := (Commits.pause (i := .inp m1 m2 m3) d rfl hd hq).exec_eq_next
    rw [stepRunsDecodedInstruction s _ hs hin hdec, hpause] at h
    cases h
    rfl

/-- A step faults a Running Machine whose record is clear exactly when it records a fault code (R289, R300). -/
theorem step_faulted_iff (hs : s.state = .running) (hclear : s.fault = FaultRecord.clear) (h : step s = .next t) :
    t.state = .faulted ↔ t.fault.code ≠ .none := by
  rcases step_next_cases h with ⟨hne, -⟩ | ⟨-, i, -, -, -, hc⟩ | ⟨-, m, w, f, -, rfl⟩
  · exact absurd hs hne
  · have hcode : t.fault.code = .none := by rw [hc.fault_eq, State.latch_fault, hclear]; rfl
    exact iff_of_false (hc.state_ne_faulted hs) (not_not_intro hcode)
  · exact iff_of_true rfl f.code_ne_none

/-- Settles O36: the three ends of a step other than Running, one by one. -/
theorem runStateTransitions : Obligations.RunStateTransitions := fun _ _ hs hclear h =>
  ⟨step_halted_iff hs h, step_paused_iff hs h, step_faulted_iff hs hclear h⟩

/-- The second state has the run state, the fault record, `ip` and `rb` of the first: what R301 says of a run that is over. -/
def State.SameEnd (s t : State) : Prop := t.state = s.state ∧ t.fault = s.fault ∧ t.ip = s.ip ∧ t.rb = s.rb

/-- A Machine that has ended is not Running (R28). -/
theorem State.ended.ne_running (he : s.ended) : s.state ≠ .running := by
  rcases he with he | he <;> simp [he]

/-- A Machine that has ended is not Paused (R28). -/
theorem State.ended.ne_paused (he : s.ended) : s.state ≠ .paused := by
  rcases he with he | he <;> simp [he]

/-- What a command other than reboot makes of a Machine that has ended has the same end (R301). -/
theorem HostChange.sameEnd (hc : HostChange cmd k s t) (he : s.ended) (hne : ∀ p, cmd ≠ .reboot k p) : s.SameEnd t := by
  cases hc with
  | reboot _ p _ _ ht => exact absurd rfl (hne p)
  | inject _ a v _ _ ht =>
    obtain ⟨n, -, -, -, rfl⟩ := inject_eq_ok_iff.mp ht
    exact ⟨rfl, rfl, rfl, rfl⟩
  | extendInput _ vs _ _ ht =>
    obtain ⟨-, rfl⟩ := extendInput_eq_ok_iff.mp ht
    exact ⟨rfl, rfl, rfl, rfl⟩
  | run => exact ⟨rfl, rfl, rfl, rfl⟩
  | resume =>
    rw [State.wake_of_not_paused he.ne_paused]
    exact ⟨rfl, rfl, rfl, rfl⟩

/-- At this place stands a Machine with the end of the given one. -/
def Session.KeepsEnd (h : Session) (k : Nat) (s : State) : Prop := ∃ t, h.machines[k]? = some t ∧ s.SameEnd t

/-- A Machine found has its own end. -/
theorem Session.KeepsEnd.refl (hm : h.machines[k]? = some s) : h.KeepsEnd k s := ⟨s, hm, rfl, rfl, rfl, rfl⟩

/-- A replacement keeps an end that the new Machine, where it is put in that place, has too. -/
theorem Session.KeepsEnd.put (hk : h.KeepsEnd k s) (ht : j = k → s.SameEnd t) : (h.put j t).KeepsEnd k s := by
  obtain ⟨u, hu, hend⟩ := hk
  by_cases hjk : j = k
  · subst hjk
    exact ⟨t, Session.put_getElem?_self hu t, ht rfl⟩
  · exact ⟨u, (h.put_getElem?_ne hjk t).trans hu, hend⟩

/-- A new Machine leaves the end of an earlier one. -/
theorem Session.KeepsEnd.make (hm : h.machines[k]? = some s) (t : State) : (h.make t).1.KeepsEnd k s :=
  .refl ((h.make_getElem?_lt (List.getElem?_eq_some_iff.mp hm).1 t).trans hm)

/-- A command other than its reboot leaves the end of a Machine that has ended (R301). -/
theorem Session.Issues.keepsEnd {h' : Session} (hc : h.Issues cmd h') (hm : h.machines[k]? = some s) (he : s.ended)
    (hne : ∀ p, cmd ≠ .reboot k p) : h'.KeepsEnd k s := by
  have found : ∀ {j u}, h.machines[j]? = some u → j = k → u = s := fun hu hjk =>
    Option.some.inj (hu.symm.trans (hjk ▸ hm))
  cases hc with
  | nothing => exact .refl hm
  | construct p t ht => exact .make hm t
  | clone j t ht => exact .make hm t
  | change _ j u t hu ht | begin _ j u t hu ht =>
    refine Session.KeepsEnd.put (.refl hm) fun hjk => ?_
    obtain rfl := found hu hjk
    exact (hjk ▸ ht).sameEnd he hne
  | drain j j' u u' hu hu' =>
    refine .put (.put (.refl hm) fun hjk => ?_) fun hjk => ?_
    · exact found hu hjk ▸ ⟨rfl, rfl, rfl, rfl⟩
    · exact found hu' hjk ▸ ⟨rfl, rfl, rfl, rfl⟩

/-- Settles O58: a command replaces a Machine by one with the same end, and a turn of a run steps no Machine that has ended. -/
theorem endedMachineStaysEnded : Obligations.EndedMachineStaysEnded := by
  refine ⟨fun h cmd k s hm he hne => (h.issue_issues cmd).keepsEnd hm he hne, fun h k s hm he => ?_⟩
  by_cases ha : h.active = some k
  · rw [Session.tick_of_not_running ha hm he.ne_running]
    exact hm
  · exact (machinesAreIsolated.2.1 h k ha).trans hm

end Sys2Proof.Machine
end

section
/-! SUPPORT. What a reboot forgets (R256, R321). -/

namespace Sys2Proof.Machine

/-- Settles O48: of the Machine it replaces, reboot reads the configuration only, and with it makes the checks construct makes,
in the same order, and the same reset state. -/
theorem rebootForgets : Obligations.RebootForgets := fun _ _ => rfl

end Sys2Proof.Machine
end
